-- ==== Sys2Proof/Word.lean ====
section
/-! DEFINITION. The widths of the core's words (00_scope.md R6, R8): every Bit Block is a bit
vector whose number is `val` of the block (R9, 20_memory.md R62), so bit `i` of a block, counted
from the first and most significant, is `getMsbD i`. -/

namespace Sys2Proof

/-- A 64-bit Bit Block: plaintext, ciphertext, key, the pre-final block (R6). -/
abbrev Block := BitVec 64

/-- A 32-bit half-block: `L`, `R`, the input and the output of the Round Function (R6). -/
abbrev Half := BitVec 32

/-- A 28-bit key half: `C`, `D` (R6). -/
abbrev KeyHalf := BitVec 28

/-- The 56-bit permuted key and the concatenation `C ++ D` (R6). -/
abbrev PermutedKey := BitVec 56

/-- A 48-bit round key, and the 48-bit expanded half-block (R6). -/
abbrev RoundKey := BitVec 48

/-- The 6-bit input chunk of an S-box (R6). -/
abbrev Chunk := BitVec 6

/-- The 4-bit output nibble of an S-box (R6). -/
abbrev Nibble := BitVec 4

/-- The 3-bit opcode of a command (30_encoding.md R91). -/
abbrev Opcode := BitVec 3

/-- The 3-bit status code (30_encoding.md R96). -/
abbrev Status := BitVec 3

/-- The 131-bit command word `{op[2:0], block[63:0], key[63:0]}` (30_encoding.md R90). -/
abbrev CommandWord := BitVec 131

/-- Sixteen round keys in generation order: entry `j` (from 0) holds K(j+1) (10_state.md R24). -/
abbrev RoundKeys := Vector RoundKey 16

end Sys2Proof
end

