-- ==== Sys2Proof/Machine/BitVector.lean ====
section
/-! DEFINITION. The Bit-Vector Utilities on blocks of fixed width (40_bitvector_utilities.md). They
have no state (R113) and, with widths fixed by type, no failure (60_exceptions.md R217); the forms
with raw blocks and error conditions are in FunctionLevel.lean. -/

namespace Sys2Proof.Machine

/-- The number of a sequence of bits, the first the most significant: `val` (00_scope.md R9). -/
def val (bits : List Bool) : Nat := bits.foldl (fun acc b => 2 * acc + b.toNat) 0

/-- The block of width `m` with the given bits, bit 0 first: `bits_m` of their number (R9). -/
def ofBits (m : Nat) (bits : List Bool) : BitVec m := BitVec.ofNat m (val bits)

/-- `permute(input, table)` with output width `m`: `out[i] = input[table[i]]`, in table order; a
gather, not a scatter (R110). The table has `m` entries. -/
def permute (m : Nat) (table : List Nat) {n : Nat} (input : BitVec n) : BitVec m :=
  ofBits m (table.map fun idx => input.getMsbD idx)

/-- `rotate_left(bits, n)`: circular shift toward index 0 by `n` modulo the width (R112). -/
def rotateLeft {w : Nat} (bits : BitVec w) (n : Nat) : BitVec w := bits.rotateLeft n

/-- The sub-block `b[i : i + len)` (00_scope.md R10). -/
def slice {n : Nat} (b : BitVec n) (i len : Nat) : BitVec len := b.extractLsb' (n - (i + len)) len

end Sys2Proof.Machine
end

