-- ==== Sys2Proof/Syntax.lean ====
section
/-! DEFINITION. The commands of the core: one constructor per row of spec/opcode_table.json, with
the operands the command uses (30_encoding.md R92), and the function calls of the source that
stand for commands (R99, R100). -/

namespace Sys2Proof

/-- The third argument of `process_block` (44_block_driver.md R170; 30_encoding.md R95). -/
inductive Mode where
  | encrypt
  | decrypt
deriving DecidableEq, Repr

/-- A command as the opcode table lists it. An operand the command does not use is no part of it
(30_encoding.md R94); every operand is a whole 64-bit block, with no immediate, register specifier
or addressing mode (R101). -/
inductive Instr where
  /-- `KEYGEN <key>` (42_key_schedule.md R148). -/
  | keygen (key : Block)
  /-- `ENCBLK <block>` (44_block_driver.md R183). -/
  | encblk (block : Block)
  /-- `DECBLK <block>` (44_block_driver.md R184). -/
  | decblk (block : Block)
  /-- `ENCRYPT <block>, <key>` (45_entry_points.md R197). -/
  | encrypt (block key : Block)
  /-- `DECRYPT <block>, <key>` (45_entry_points.md R198). -/
  | decrypt (block key : Block)
  /-- The reserved opcode `000` (30_encoding.md R93; 45_entry_points.md R194). -/
  | reserved000
  /-- The reserved opcode `001` (R93, R194). -/
  | reserved001
  /-- The reserved opcode `011` (R93, R194). -/
  | reserved011
deriving DecidableEq, Repr

/-- The source's four named error conditions of the function level (60_exceptions.md R210). -/
inductive Condition where
  /-- An operand is not exactly 64 elements long (R211). -/
  | invalidLength
  /-- An element of an operand is not 0 or 1 (R212). -/
  | invalidBitValue
  /-- An entry of a permutation table is not less than the input width (R213). -/
  | tableIndexOutOfRange
  /-- The two operands of `xor` differ in width (R214). -/
  | lengthMismatch
deriving DecidableEq, Repr

/-- A block as the source's software holds it: a sequence of elements of any length, each of which
may be something other than 0 or 1 (60_exceptions.md R212, R217). Element 0 comes first. -/
abbrev RawBlock := List Nat

/-- A call of the source, as a host-side wrapper makes it before it presents a command
(30_encoding.md R99, R100; 60_exceptions.md R217). -/
inductive Call where
  /-- `generate_round_keys(key)`. -/
  | generateRoundKeys (key : RawBlock)
  /-- `process_block(input, RK, mode)` under the round keys already in `RK`. -/
  | processBlock (input : RawBlock) (mode : Mode)
  /-- `encrypt(plaintext, key)`. -/
  | encrypt (plaintext key : RawBlock)
  /-- `decrypt(ciphertext, key)`. -/
  | decrypt (ciphertext key : RawBlock)
deriving DecidableEq, Repr

end Sys2Proof
end

