-- ==== Sys2Proof/WellFormed.lean ====
section
/-! DEFINITION. Well-formed operands. The ports are 64 two-valued wires each, so a command that
reaches the core is well formed by its type (20_memory.md R65; 60_exceptions.md R217; 92 D7). What
can be ill formed is a function call with raw operands, which a wrapper checks before it presents
the command; the checks and their order are those of R141, R171, R190 and R219. -/

namespace Sys2Proof

/-- The check of one raw operand: the length first, the bit values second (R141, R171; 92 D20). -/
def RawBlock.check (b : RawBlock) : Except Condition Unit :=
  if b.length ≠ 64 then .error .invalidLength
  else if b.all (fun x => x == 0 || x == 1) then .ok ()
  else .error .invalidBitValue

/-- The check of a call: the key's conditions come before the block's (R190, R219). -/
def Call.check : Call → Except Condition Unit
  | .generateRoundKeys key => RawBlock.check key
  | .processBlock input _ => RawBlock.check input
  | .encrypt plaintext key =>
    match RawBlock.check key with
    | .error e => .error e
    | .ok _ => RawBlock.check plaintext
  | .decrypt ciphertext key =>
    match RawBlock.check key with
    | .error e => .error e
    | .ok _ => RawBlock.check ciphertext

/-- A call whose operands pass every check. -/
def Call.wellFormed (c : Call) : Bool :=
  match c.check with
  | .ok _ => true
  | .error _ => false

/-- A command is well formed whatever its operands: their widths hold by type (R65, R101). A
reserved opcode is a command too: it can be presented, and fails when it is accepted (R93). -/
def Instr.wellFormed : Instr → Bool
  | .keygen _ => true
  | .encblk _ => true
  | .decblk _ => true
  | .encrypt _ _ => true
  | .decrypt _ _ => true
  | .reserved000 => true
  | .reserved001 => true
  | .reserved011 => true

end Sys2Proof
end

