-- ==== Sys2Proof/Decode.lean ====
section
/-! DEFINITION. Decoding a command (30_encoding.md R90 to R93), encoding it, the words of the opcode
table, and the conversions between the ports and what stands above them: raw blocks, bytes and
hexadecimal digits (00_scope.md R9; 20_memory.md R62, R63; 30_encoding.md R100, R101). -/

namespace Sys2Proof

/-! ## Opcodes -/

/-- The opcode of a command (the opcode map, R92). -/
def Instr.opcode : Instr → Opcode
  | .reserved000 => 0b000#3
  | .reserved001 => 0b001#3
  | .keygen _ => 0b010#3
  | .reserved011 => 0b011#3
  | .encblk _ => 0b100#3
  | .decblk _ => 0b101#3
  | .encrypt _ _ => 0b110#3
  | .decrypt _ _ => 0b111#3

/-- `op[2]`, `blk`: the command runs the block driver on `cmd_block` (R91). -/
def Opcode.blk (op : Opcode) : Bool := op.getLsbD 2

/-- `op[1]`, `key`: the command first runs the key schedule on `cmd_key` (R91). -/
def Opcode.key (op : Opcode) : Bool := op.getLsbD 1

/-- `op[0]`, `mode`: 0 is `Encrypt`, 1 is `Decrypt` (R91, R95). -/
def Opcode.mode (op : Opcode) : Mode := if op.getLsbD 0 then .decrypt else .encrypt

/-! ## Decoding -/

/-- The command that stands on the ports: the three bits of `op` decide, and an operand the command
does not use is dropped (R90, R91, R92, R94). Total: all eight opcodes are in the table. -/
def decodePorts (op : Opcode) (block key : Block) : Instr :=
  match op.getLsbD 2, op.getLsbD 1, op.getLsbD 0 with
  | false, false, false => .reserved000
  | false, false, true => .reserved001
  | false, true, false => .keygen key
  | false, true, true => .reserved011
  | true, false, false => .encblk block
  | true, false, true => .decblk block
  | true, true, false => .encrypt block key
  | true, true, true => .decrypt block key

/-- The command of a 131-bit command word: `op` is bits 130 to 128, `block` bits 127 to 64, `key`
bits 63 to 0 (R90). -/
def decodeWord (w : CommandWord) : Instr :=
  decodePorts (w.extractLsb' 128 3) (w.extractLsb' 64 64) (w.extractLsb' 0 64)

/-- Why a number is no command word. -/
inductive DecodeError where
  /-- The number has a bit above bit 130, the highest of a command word (R90). -/
  | wordTooWide
deriving DecidableEq, Repr

/-- Decoding a number written as a command word, for example the 33 hexadecimal digits of
95_test_vectors.md: refused when it does not fit the 131 bits of R90. -/
def decode (w : Nat) : Except DecodeError Instr :=
  if w < 2 ^ 131 then .ok (decodeWord (BitVec.ofNat 131 w)) else .error .wordTooWide

/-! ## Encoding -/

/-- The block operand as it is presented; a command that uses none presents zeros
(95_test_vectors.md, command encoding; by R94 any value would do). -/
def Instr.blockOperand : Instr → Block
  | .encblk block => block
  | .decblk block => block
  | .encrypt block _ => block
  | .decrypt block _ => block
  | .keygen _ => 0
  | .reserved000 => 0
  | .reserved001 => 0
  | .reserved011 => 0

/-- The key operand as it is presented; zeros where the command uses none. -/
def Instr.keyOperand : Instr → Block
  | .keygen key => key
  | .encrypt _ key => key
  | .decrypt _ key => key
  | .encblk _ => 0
  | .decblk _ => 0
  | .reserved000 => 0
  | .reserved001 => 0
  | .reserved011 => 0

/-- The command word of a command: `op`, then `block`, then `key`, `op` most significant (R90). -/
def encode (i : Instr) : CommandWord := i.opcode ++ i.blockOperand ++ i.keyOperand

/-! ## The words of spec/opcode_table.json -/

/-- The number of a table word as a command word. The table's own match, mask and fixed bits number
the 3-bit `op` field alone, bit 0 its least significant; a word of that form becomes the command
with zero operands. A word that has all 131 bits of R90 and a bit above the `op` field's three is
read as the command word itself. -/
def tableWordToCommandWord (nbits w : Nat) : Nat :=
  if 131 ≤ nbits ∧ 8 ≤ w then w else (w % 8) * 2 ^ 128

/-- The instruction the decoder reads from a word of the opcode table. -/
def decodeTableWord (nbits w : Nat) : Option Instr :=
  match decode (tableWordToCommandWord nbits w) with
  | .ok i => some i
  | .error _ => none

/-! ## Above the ports -/

/-- The number a raw block stands for when every element is a bit: `val` (R9). -/
def RawBlock.val (b : RawBlock) : Nat := b.foldl (fun acc x => 2 * acc + x) 0

/-- The 64-bit block of a checked raw operand (R9, R62). -/
def RawBlock.toBlock (b : RawBlock) : Block := BitVec.ofNat 64 (RawBlock.val b)

/-- A block of any width as the sequence of its bits, bit 0 first (R8). -/
def rawOfBits {n : Nat} (b : BitVec n) : RawBlock :=
  (List.range n).map fun i => (b.getMsbD i).toNat

/-- The command a checked call stands for (R100). -/
def Call.command : Call → Instr
  | .generateRoundKeys key => .keygen (RawBlock.toBlock key)
  | .processBlock input .encrypt => .encblk (RawBlock.toBlock input)
  | .processBlock input .decrypt => .decblk (RawBlock.toBlock input)
  | .encrypt plaintext key => .encrypt (RawBlock.toBlock plaintext) (RawBlock.toBlock key)
  | .decrypt ciphertext key => .decrypt (RawBlock.toBlock ciphertext) (RawBlock.toBlock key)

/-- What a wrapper does with a call: report the condition, or present the command (R217). -/
def Call.present (c : Call) : Except Condition Instr :=
  match c.check with
  | .error e => .error e
  | .ok _ => .ok c.command

/-- The status code that names a condition of the function level (R96). -/
def Condition.code : Condition → Status
  | .invalidLength => 2
  | .invalidBitValue => 3
  | .tableIndexOutOfRange => 4
  | .lengthMismatch => 5

/-- Eight characters or bytes as a block: byte `j` in the order given occupies block bits `8j` to
`8j+7`, most significant bit first (R63). A convention for what stands above the core. -/
def blockOfBytes (bytes : Vector (BitVec 8) 8) : Block :=
  BitVec.ofNat 64 (bytes.toList.foldl (fun acc b => 256 * acc + b.toNat) 0)

/-- Hexadecimal digit `j` of a block, counted from the left: `val(b[4j : 4j+4))` (R9). -/
def hexDigit {n : Nat} (b : BitVec n) (j : Nat) : Nat := b.toNat / 2 ^ (n - 4 * (j + 1)) % 16

/-- The hexadecimal rendering of a block, most significant digit first (R9). -/
def hexDigits {n : Nat} (b : BitVec n) : List Nat := (List.range (n / 4)).map (hexDigit b)

end Sys2Proof
end

