-- ==== Sys2Proof/Machine/State.lean ====
section
/-! DEFINITION. The state of one core, what its host does to it, and the state after reset
(10_state.md). -/

namespace Sys2Proof.Machine

/-- The phases of the sequencing register `PH` (R31): exactly 39 values. -/
inductive Phase where
  /-- After reset, no command accepted yet. -/
  | idle
  /-- `KS(i)`, `i` = 0..16: `C`, `D` hold C_i, D_i; `RK[1..i]` are written. -/
  | ks (i : Fin 17)
  /-- `IN` holds the input block; `RK` holds the 16 round keys. -/
  | initial
  /-- `L`, `R` hold L_0, R_0. -/
  | permuted
  /-- `Round[i+1]`: Feistel round `i+1` is done (`i` = 0..15). -/
  | round (i : Fin 16)
  /-- The pre-final block is `R ++ L`. -/
  | preFinal
  /-- The command completed successfully. -/
  | final
  /-- The command failed. -/
  | failed
deriving DecidableEq, Repr

/-- A ready phase: a command can be accepted (00_scope.md R14; R32). -/
def Phase.ready : Phase → Bool
  | .idle => true
  | .final => true
  | .failed => true
  | .ks _ => false
  | .initial => false
  | .permuted => false
  | .round _ => false
  | .preFinal => false

/-- What the host drives on the input ports while the core takes one step (R30). -/
structure PortSample where
  /-- `rst` (70_reset_and_hazards.md R240). -/
  rst : Bool
  /-- `cmd_valid`. -/
  cmdValid : Bool
  /-- `cmd_op`. -/
  cmdOp : Opcode
  /-- `cmd_key`. -/
  cmdKey : Block
  /-- `cmd_block`. -/
  cmdBlock : Block
deriving DecidableEq, Repr

/-- Ports at rest: no reset, no command. -/
def PortSample.quiet : PortSample :=
  { rst := false, cmdValid := false, cmdOp := 0, cmdKey := 0, cmdBlock := 0 }

/-- The complete architectural state of one core (R21), and the host's input history to come. -/
structure State where
  /-- Left key half, 28 bits (R22). -/
  C : KeyHalf
  /-- Right key half, 28 bits (R22). -/
  D : KeyHalf
  /-- The round-key store, 16 entries of 48 bits; entry `j` (from 0) is `RK[j+1]` (R24). -/
  RK : RoundKeys
  /-- Key valid (R25). -/
  KV : Bool
  /-- The input block of the current block operation (R26). -/
  IN : Block
  /-- Left half of the Round State (R23). -/
  L : Half
  /-- Right half of the Round State (R23). -/
  R : Half
  /-- The result block (R27). -/
  OUT : Block
  /-- The opcode of the command most recently accepted (R28). -/
  OP : Opcode
  /-- The status code of the command in progress or last completed (R29). -/
  STATUS : Status
  /-- The phase (R31). -/
  PH : Phase
  /-- The model's own field: what the host drives on the input ports in the steps to come, the next
  step's sample first (R20 (b), R248: deterministic given the input history). The ports are at rest
  once the list is used up. -/
  inputs : List PortSample
deriving DecidableEq, Repr

/-- The machine never stops with a fault: a command that fails ends in phase `Failed` with its
status code (60_exceptions.md R217, R218), and there is no other way to stop. Hence no constructor. -/
inductive Fault : Type
deriving DecidableEq, Repr

/-- Why the model would give no meaning. -/
inductive Refusal where
  /-- Raised by a refused arm of `exec` for a command that has no meaning yet; no arm is refused in
  this model. Safe: nothing is proved about a refused command. -/
  | notModelled (mnemonic : String)
deriving DecidableEq, Repr

/-- The state after reset (R37). `PH`, `KV`, `STATUS`, `OUT`, `OP` are the spec's values. `RK`, `C`,
`D`, `L`, `R`, `IN` are unspecified there; zero is DESIGN CHOICE (notes/assumptions/1.md). -/
def State.reset : State :=
  { C := 0, D := 0, RK := Vector.replicate 16 0, KV := false, IN := 0, L := 0, R := 0, OUT := 0,
    OP := 0b000#3, STATUS := 0, PH := .idle, inputs := [] }

end Sys2Proof.Machine
end

