-- ==== Sys2Proof/Machine/Flags.lean ====
section
/-! DEFINITION. The status codes and the only two flags of the core, `STATUS` and `KV` (10_state.md
R25, R29; 30_encoding.md R96). No operation sets a condition code as a side effect. -/

namespace Sys2Proof.Machine

/-- Code 0: no command has completed since reset, or one is in progress (R96). -/
def statusNone : Status := 0

/-- Code 1: the command completed (R96). -/
def statusOk : Status := 1

/-- Code 6: a reserved opcode was accepted (R96; 60_exceptions.md R215). -/
def statusIllegalOp : Status := 6

/-- Code 7: `ENCBLK` or `DECBLK` was accepted while `KV` = 0 (R96; 60_exceptions.md R216). -/
def statusNoKey : Status := 7

/-- `STATUS <- code`. -/
def State.setStatus (code : Status) (s : State) : State := { s with STATUS := code }

/-- `KV <- v`. -/
def State.setKeyValid (v : Bool) (s : State) : State := { s with KV := v }

end Sys2Proof.Machine
end

