-- ==== Sys2Proof/Machine/Operands.lean ====
section
/-! DEFINITION. Operands: the ports are sampled once, at acceptance, each operand as a whole
64-bit block (20_memory.md R62, R66; 30_encoding.md R90, R101; 70_reset_and_hazards.md R245). -/

namespace Sys2Proof.Machine

/-- Bit `k` of a port seen as an unsigned number, bit 0 the least significant (00_scope.md R10). -/
def portBit {n : Nat} (p : BitVec n) (k : Nat) : Bool := p.getLsbD k

/-- Bit `i` of a Bit Block, bit 0 the first and most significant (00_scope.md R8). -/
def blockBit {n : Nat} (b : BitVec n) (i : Nat) : Bool := b.getMsbD i

/-- The Bit Block on a 64-bit port: block bit `i` is port bit `63 - i`, so the two are the same
number (R62). -/
def blockOfPort (p : BitVec 64) : Block := p

/-- The port value of a Bit Block: the inverse of `blockOfPort` (R62). -/
def portOfBlock (b : Block) : BitVec 64 := b

/-- The command a port sample presents (R90). -/
def PortSample.command (p : PortSample) : Instr :=
  decodePorts p.cmdOp (blockOfPort p.cmdBlock) (blockOfPort p.cmdKey)

/-- The sample that presents a command. -/
def PortSample.present (i : Instr) : PortSample :=
  { rst := false, cmdValid := true, cmdOp := i.opcode, cmdKey := portOfBlock i.keyOperand,
    cmdBlock := portOfBlock i.blockOperand }

/-- What stands on the input ports in the next step; at rest when the input history is used up. -/
def State.port (s : State) : PortSample := s.inputs.headD PortSample.quiet

/-- The state once the sample of the present step has passed. -/
def State.advance (s : State) : State := { s with inputs := s.inputs.tail }

/-- The state in which the host drives `p` in the next step, in place of what it would have driven. -/
def State.withSample (p : PortSample) (s : State) : State :=
  { s with inputs := p :: s.inputs.tail }

/-- The host asserts `rst` in none of the next `n` steps. -/
def State.noResetFor (n : Nat) (s : State) : Bool := (s.inputs.take n).all fun p => !p.rst

end Sys2Proof.Machine
end

