-- ==== Sys2Proof/Machine/Ops.lean ====
section
/-! DEFINITION. The operations every command shares: the round-key store's read and write, moving
the phase, the three writes of acceptance, failing (what stands for taking an exception,
60_exceptions.md R218) and the reset event (70_reset_and_hazards.md R240). -/

namespace Sys2Proof.Machine

/-- `RK[i+1]` (10_state.md R24). -/
def readKey (rk : RoundKeys) (i : Fin 16) : RoundKey := rk[i]

/-- `RK[i+1] <- k`. -/
def State.writeKey (i : Fin 16) (k : RoundKey) (s : State) : State :=
  { s with RK := s.RK.set i k }

/-- `PH <- p`. -/
def State.enter (p : Phase) (s : State) : State := { s with PH := p }

/-- The three writes with which every acceptance begins (45_entry_points.md R193):
`OP <- op`, `OUT <- 0`, `STATUS <- 0`. -/
def State.beginCommand (op : Opcode) (s : State) : State :=
  { s with OP := op, OUT := 0, STATUS := statusNone }

/-- A command fails: `STATUS` takes the code, `OUT` is all zeros, `PH` becomes `Failed`, and nothing
is saved anywhere else; control goes nowhere (R218). There is no return from it: the core is ready
and the next acceptance clears `STATUS` (R220). -/
def State.fail (code : Status) (s : State) : State :=
  { s with STATUS := code, OUT := 0, PH := .failed }

/-- The reset event: the whole state is replaced by the reset state of 10_state.md R37, whatever it
was (R240, R241). Only the host's input history goes on. -/
def State.resetEvent (s : State) : State := { State.reset with inputs := s.inputs }

end Sys2Proof.Machine
end

