-- ==== Sys2Proof/Machine/KeySchedule.lean ====
section
/-! DEFINITION. The Key Schedule (42_key_schedule.md): the function `generate_round_keys` on blocks
of fixed width (R140 to R144) and the machine's steps `KS-ROUND(i)` and `KS-DONE` (R146, R147). -/

namespace Sys2Proof.Machine

/-! ## Function level -/

/-- Permuted-Choice-1 (R142). -/
def permutedKey (key : Block) : PermutedKey := permute 56 tablePC1 key

/-- C_0 = pk[0 : 28) (R142). -/
def keyC0 (key : Block) : KeyHalf := slice (permutedKey key) 0 28

/-- D_0 = pk[28 : 56) (R142). -/
def keyD0 (key : Block) : KeyHalf := slice (permutedKey key) 28 28

/-- `SHIFT[i]`, the shift amount of key-schedule round `i + 1` (R122, R143). -/
def shiftAmount (i : Nat) : Nat := shiftSchedule.getD i 0

/-- Permuted-Choice-2 of `C ++ D` (R143). -/
def roundKeyOf (c d : KeyHalf) : RoundKey := permute 48 tablePC2 (c ++ d)

/-- The Key Schedule State after round `i`: (C_i, D_i). The shifts accumulate, and each half is
rotated within its own 28 bits (R143). -/
def scheduleState (key : Block) : Nat → KeyHalf × KeyHalf
  | 0 => (keyC0 key, keyD0 key)
  | i + 1 =>
    let cd := scheduleState key i
    (rotateLeft cd.1 (shiftAmount i), rotateLeft cd.2 (shiftAmount i))

/-- K_i, computed from the halves after the shift of round `i` (R143). -/
def scheduledKey (key : Block) (i : Nat) : RoundKey :=
  roundKeyOf (scheduleState key i).1 (scheduleState key i).2

/-- `generate_round_keys(key)`: K1..K16 in generation order (R140, R144). -/
def generateRoundKeys (key : Block) : RoundKeys :=
  Vector.ofFn fun i : Fin 16 => scheduledKey key (i.val + 1)

/-! ## Machine level -/

/-- Step `KS-ROUND(i+1)` (R146): rotate `C` and `D`, write `RK[i+1]` from the new halves. -/
def State.ksRound (i : Fin 16) (s : State) : State :=
  let newC := rotateLeft s.C (shiftAmount i)
  let newD := rotateLeft s.D (shiftAmount i)
  State.enter (.ks i.succ) (State.writeKey i (roundKeyOf newC newD) { s with C := newC, D := newD })

/-- Step `KS-DONE` (R147): the schedule is published by `KV <- 1`; a block operation follows when
`OP[2]` = 1, and otherwise the command ends. -/
def State.ksDone (s : State) : State :=
  if s.OP.getLsbD 2 then State.enter .initial (State.setKeyValid true s)
  else State.enter .final (State.setStatus statusOk (State.setKeyValid true s))

end Sys2Proof.Machine
end

