-- ==== Sys2Proof/Machine/RoundFunction.lean ====
section
/-! DEFINITION. The Round Function `feistel_f` (43_round_function.md): combinational, it owns no
register and cannot fail on operands of these widths (R165). -/

namespace Sys2Proof.Machine

/-- Step 1, expansion: `e = permute(right, E)` (R161). -/
def expand (right : Half) : RoundKey := permute 48 tableE right

/-- Chunk `i` of the 48-bit value: `x[6i : 6i+6)`, chunk 0 first (R163). -/
def chunk (x : RoundKey) (i : Nat) : Chunk := slice x (6 * i) 6

/-- The row: the chunk's first and last bit, the first the more significant (R163). -/
def sBoxRow (c : Chunk) : Nat := 2 * (c.getMsbD 0).toNat + (c.getMsbD 5).toNat

/-- The column: the chunk's inner four bits, the first the most significant (R163). -/
def sBoxCol (c : Chunk) : Nat :=
  8 * (c.getMsbD 1).toNat + 4 * (c.getMsbD 2).toNat + 2 * (c.getMsbD 3).toNat + (c.getMsbD 4).toNat

/-- The output nibble of chunk `i` (R163). -/
def sBoxOutput (i : Nat) (c : Chunk) : Nibble := BitVec.ofNat 4 (sBoxCell i (sBoxRow c) (sBoxCol c))

/-- Step 3, substitution: the eight nibbles in chunk order, chunk 0's first (R163). -/
def substitute (x : RoundKey) : Half :=
  BitVec.ofNat 32
    ((List.range 8).foldl (fun acc i => 16 * acc + (sBoxOutput i (chunk x i)).toNat) 0)

/-- Step 4, permutation: `permute(s, P)` (R164). -/
def permuteP (s : Half) : Half := permute 32 tableP s

/-- `feistel_f(right, round_key)` (R160): expansion, key mixing (R162), substitution, permutation. -/
def feistelF (right : Half) (roundKey : RoundKey) : Half :=
  permuteP (substitute (expand right ^^^ roundKey))

end Sys2Proof.Machine
end

