-- ==== Sys2Proof/Machine/BlockDriver.lean ====
section
/-! DEFINITION. The Block Cipher Driver (44_block_driver.md): the function `process_block` on blocks
of fixed width (R170 to R176), the entry points `encrypt` and `decrypt` (45_entry_points.md R190,
R191), and the machine's driver steps (R179 to R182). -/

namespace Sys2Proof.Machine

/-! ## Function level -/

/-- The Initial Permutation (R172). -/
def initialPermutation (x : Block) : Block := permute 64 tableIP x

/-- The Final Permutation (R176). -/
def finalPermutation (x : Block) : Block := permute 64 tableFP x

/-- The index, from 0, of the round key that Feistel round `i + 1` uses: forward for `Encrypt`,
reversed for `Decrypt` (R173). -/
def keyIndex (mode : Mode) (i : Fin 16) : Fin 16 :=
  match mode with
  | .encrypt => i
  | .decrypt => i.rev

/-- One Feistel round with round key `k`: `L' = R`, `R' = L XOR feistel_f(R, k)`, both from the old
values (R174). -/
def feistelRound (k : RoundKey) (lr : Half × Half) : Half × Half :=
  (lr.2, lr.1 ^^^ feistelF lr.2 k)

/-- (L_0, R_0) (R172). -/
def initialHalves (x : Block) : Half × Half :=
  (slice (initialPermutation x) 0 32, slice (initialPermutation x) 32 32)

/-- The Round State after `i` rounds: (L_i, R_i), for `i` up to 16 (R173, R174). -/
def roundState (rk : RoundKeys) (mode : Mode) (x : Block) : Nat → Half × Half
  | 0 => initialHalves x
  | i + 1 => feistelRound (readKey rk (keyIndex mode (Fin.ofNat 16 i))) (roundState rk mode x i)

/-- The pre-final block `R16 ++ L16`: the halves are swapped (R175). -/
def preFinalBlock (lr : Half × Half) : Block := lr.2 ++ lr.1

/-- `process_block(input, round_keys, mode)` (R170). -/
def processBlock (x : Block) (rk : RoundKeys) (mode : Mode) : Block :=
  finalPermutation (preFinalBlock (roundState rk mode x 16))

/-- `encrypt(plaintext, key)` (R190). -/
def encryptBlock (plaintext key : Block) : Block :=
  processBlock plaintext (generateRoundKeys key) .encrypt

/-- `decrypt(ciphertext, key)`: the same schedule, the mode `Decrypt` (R191). -/
def decryptBlock (ciphertext key : Block) : Block :=
  processBlock ciphertext (generateRoundKeys key) .decrypt

/-! ## Machine level -/

/-- Step `DRV-IP` (R179). -/
def State.drvIp (s : State) : State :=
  let pb := initialPermutation s.IN
  State.enter .permuted { s with L := slice pb 0 32, R := slice pb 32 32 }

/-- Step `DRV-ROUND(i+1)` (R180): the mode is `OP[0]`. -/
def State.drvRound (i : Fin 16) (s : State) : State :=
  let k := readKey s.RK (keyIndex (Opcode.mode s.OP) i)
  State.enter (.round i) { s with L := s.R, R := s.L ^^^ feistelF s.R k }

/-- Step `DRV-PREFINAL` (R181): `PH` only; the pre-final block is in no register of its own. -/
def State.drvPreFinal (s : State) : State := State.enter .preFinal s

/-- Step `DRV-FINAL` (R182). -/
def State.drvFinal (s : State) : State :=
  State.enter .final (State.setStatus statusOk { s with OUT := finalPermutation (s.R ++ s.L) })

end Sys2Proof.Machine
end

