-- ==== Sys2Proof/Machine/Accept.lean ====
section
/-! DEFINITION. The step `ACCEPT`, through which every command enters the core (45_entry_points.md
R193 to R196). -/

namespace Sys2Proof.Machine

/-- `ACCEPT` of a reserved opcode: `ILLEGAL_OP`, in this one step (R194). -/
def State.acceptReserved (op : Opcode) (s : State) : State :=
  State.fail statusIllegalOp (State.beginCommand op s)

/-- What `ACCEPT` of every key-bearing opcode writes from the key: `C`, `D` from Permuted-Choice-1,
`KV <- 0`, `PH <- KS(0)`; the raw key is kept nowhere (R195). -/
def State.loadKey (key : Block) (s : State) : State :=
  State.enter (.ks 0) (State.setKeyValid false { s with C := keyC0 key, D := keyD0 key })

/-- `ACCEPT` of `KEYGEN`: the block port is not read (R195, R94). -/
def State.acceptKey (op : Opcode) (key : Block) (s : State) : State :=
  State.loadKey key (State.beginCommand op s)

/-- `ACCEPT` of `ENCRYPT` and `DECRYPT`: the block goes into `IN` (R195). -/
def State.acceptKeyAndBlock (op : Opcode) (block key : Block) (s : State) : State :=
  State.loadKey key { State.beginCommand op s with IN := block }

/-- `ACCEPT` of `ENCBLK` and `DECBLK`: the driver starts when `KV` = 1, and otherwise the command
fails with `NO_KEY` and `IN` is not written (R196). -/
def State.acceptBlock (op : Opcode) (block : Block) (s : State) : State :=
  if s.KV then State.enter .initial { State.beginCommand op s with IN := block }
  else State.fail statusNoKey (State.beginCommand op s)

/-- `ACCEPT` (R193): the case distinction on the opcode. -/
def State.accept (i : Instr) (s : State) : State :=
  match i with
  | .keygen key => State.acceptKey 0b010#3 key s
  | .encblk block => State.acceptBlock 0b100#3 block s
  | .decblk block => State.acceptBlock 0b101#3 block s
  | .encrypt block key => State.acceptKeyAndBlock 0b110#3 block key s
  | .decrypt block key => State.acceptKeyAndBlock 0b111#3 block key s
  | .reserved000 => State.acceptReserved 0b000#3 s
  | .reserved001 => State.acceptReserved 0b001#3 s
  | .reserved011 => State.acceptReserved 0b011#3 s

end Sys2Proof.Machine
end

