-- ==== Sys2Proof/Machine/Sequencer.lean ====
section
/-! DEFINITION. The control flow of the core (44_block_driver.md R186): which internal step a phase
enables, one step of the spec's step machine (`tick`), and a command from its acceptance to the next
ready phase (45_entry_points.md R203). -/

namespace Sys2Proof.Machine

/-- The one internal step that a non-ready phase enables (R146, R147, R179 to R182, R186). A ready
phase enables none. -/
def State.internalStep (s : State) : State :=
  match s.PH with
  | .ks i => if h : i.val < 16 then State.ksRound ⟨i.val, h⟩ s else State.ksDone s
  | .initial => State.drvIp s
  | .permuted => State.drvRound 0 s
  | .round i => if h : i.val + 1 < 16 then State.drvRound ⟨i.val + 1, h⟩ s else State.drvPreFinal s
  | .preFinal => State.drvFinal s
  | .idle => s
  | .final => s
  | .failed => s

/-- One step of a core with a command in progress: the reset event if `rst` is asserted
(70_reset_and_hazards.md R240, R241), and otherwise the enabled internal step; a command presented
meanwhile is not accepted (R202, R243). -/
def State.busyTick (s : State) : State :=
  if s.port.rst then State.resetEvent s.advance else State.internalStep s.advance

/-- One step of the spec's step machine: reset has priority over every other step (R240); in a ready
phase a presented command is accepted, and without one the core stays as it is (R193); in any other
phase the enabled internal step is taken. -/
def State.tick (s : State) : State :=
  if s.port.rst then State.resetEvent s.advance
  else if s.PH.ready then
    if s.port.cmdValid then State.accept s.port.command s.advance else s.advance
  else State.internalStep s.advance

/-- At most `n` steps of the command in progress, up to the next ready phase. -/
def State.finish : Nat → State → State
  | 0, s => s
  | n + 1, s => if s.PH.ready then s else State.finish n (State.busyTick s)

/-- The most steps a command takes after its acceptance (70_reset_and_hazards.md R247: 37 in all). -/
def maxInternalSteps : Nat := 36

/-- A command presented to the core. In a ready phase it is accepted by `acc` and runs to the next
ready phase (R203). In any other phase it waits: it is not accepted, not queued and does not disturb
the command in progress, which takes its enabled internal step (R202, R243). -/
def runCommand (acc : State → State) (s : State) : State :=
  if s.PH.ready then State.finish maxInternalSteps (acc s) else State.internalStep s

end Sys2Proof.Machine
end

