-- ==== Sys2Proof/Machine/BlockCommands.lean ====
section
/-! DEFINITION. The meanings of `ENCBLK` and `DECBLK` (44_block_driver.md R183, R184). -/

namespace Sys2Proof.Machine

/-- `ENCBLK <block>`: acceptance, then the block driver with the round keys in `RK`, forward; or
`NO_KEY` (R183). -/
def execEncblk (block : Block) (s : State) : Host.Outcome State Fault Refusal :=
  .next (runCommand (State.acceptBlock 0b100#3 block) s)

/-- `DECBLK <block>`: as `ENCBLK`, with the round keys reversed (R184). -/
def execDecblk (block : Block) (s : State) : Host.Outcome State Fault Refusal :=
  .next (runCommand (State.acceptBlock 0b101#3 block) s)

end Sys2Proof.Machine
end

