-- ==== Sys2Proof/Machine/CipherCommands.lean ====
section
/-! DEFINITION. The meanings of `ENCRYPT` and `DECRYPT` (45_entry_points.md R197, R198). -/

namespace Sys2Proof.Machine

/-- `ENCRYPT <block>, <key>`: acceptance, the key schedule, the block driver forward (R197). -/
def execEncrypt (block key : Block) (s : State) : Host.Outcome State Fault Refusal :=
  .next (runCommand (State.acceptKeyAndBlock 0b110#3 block key) s)

/-- `DECRYPT <block>, <key>`: the same schedule, the block driver reversed (R198). -/
def execDecrypt (block key : Block) (s : State) : Host.Outcome State Fault Refusal :=
  .next (runCommand (State.acceptKeyAndBlock 0b111#3 block key) s)

end Sys2Proof.Machine
end

