-- ==== Sys2Proof/Machine/KeyCommands.lean ====
section
/-! DEFINITION. The meaning of `KEYGEN` (42_key_schedule.md R148). -/

namespace Sys2Proof.Machine

/-- `KEYGEN <key>`: acceptance, `KS-ROUND(1..16)`, `KS-DONE` (R148). -/
def execKeygen (key : Block) (s : State) : Host.Outcome State Fault Refusal :=
  .next (runCommand (State.acceptKey 0b010#3 key) s)

end Sys2Proof.Machine
end

