-- ==== Sys2Proof/Machine/ReservedCommands.lean ====
section
/-! DEFINITION. The meanings of the reserved opcodes: not a no-op and not a hint, accepting one fails
the command with `ILLEGAL_OP` (30_encoding.md R93; 45_entry_points.md R194). -/

namespace Sys2Proof.Machine

/-- The reserved opcode `000` (R194). -/
def execReserved000 (s : State) : Host.Outcome State Fault Refusal :=
  .next (runCommand (State.acceptReserved 0b000#3) s)

/-- The reserved opcode `001` (R194). -/
def execReserved001 (s : State) : Host.Outcome State Fault Refusal :=
  .next (runCommand (State.acceptReserved 0b001#3) s)

/-- The reserved opcode `011` (R194). -/
def execReserved011 (s : State) : Host.Outcome State Fault Refusal :=
  .next (runCommand (State.acceptReserved 0b011#3) s)

end Sys2Proof.Machine
end

