-- ==== Sys2Proof/Machine/Dispatch.lean ====
section
/-! DEFINITION. One arm per command. -/

namespace Sys2Proof.Machine

def exec (i : Instr) (s : State) : Host.Outcome State Fault Refusal :=
  match i with
  | .keygen key => Sys2Proof.Machine.execKeygen key s
  | .encblk block => Sys2Proof.Machine.execEncblk block s
  | .decblk block => Sys2Proof.Machine.execDecblk block s
  | .encrypt block key => Sys2Proof.Machine.execEncrypt block key s
  | .decrypt block key => Sys2Proof.Machine.execDecrypt block key s
  | .reserved000 => Sys2Proof.Machine.execReserved000 s
  | .reserved001 => Sys2Proof.Machine.execReserved001 s
  | .reserved011 => Sys2Proof.Machine.execReserved011 s

end Sys2Proof.Machine
end

