-- ==== Sys2Proof/Machine/Step.lean ====
section
/-! DEFINITION. One step of the machine, and where the next command is placed. -/

namespace Sys2Proof.Machine

/-- One step. Reset has priority (70_reset_and_hazards.md R240). A presented command is executed: in a
ready phase it is accepted and its internal steps are taken with it, which R247 allows and R203 shows
to agree with the step machine `State.tick`; while the core is busy it waits (R202). Without one, a
ready core stays as it is (45_entry_points.md R193) and a busy core takes its internal step. -/
def step (s : State) : Host.Outcome State Fault Refusal :=
  if s.port.rst then .next (State.resetEvent s.advance)
  else if s.port.cmdValid then exec s.port.command s.advance
  else .next (State.internalStep s.advance)

/-- The port sample that presents a word of the opcode table: the command word's fields on the three
command ports (30_encoding.md R90). -/
def PortSample.ofTableWord (nbits w : Nat) : PortSample :=
  let cw := BitVec.ofNat 131 (tableWordToCommandWord nbits w)
  { rst := false, cmdValid := true, cmdOp := cw.extractLsb' 128 3, cmdKey := cw.extractLsb' 0 64,
    cmdBlock := cw.extractLsb' 64 64 }

/-- The host presents that word in the next step, in place of what it would have driven then, to a
core in a ready phase: a busy core would not accept it, so its phase becomes `Idle`. -/
def State.withFetchWord (s : State) (nbits w : Nat) : State :=
  { s with
    PH := if s.PH.ready then s.PH else .idle
    inputs := PortSample.ofTableWord nbits w :: s.inputs.tail }

end Sys2Proof.Machine
end

