-- ==== Sys2Proof/Config.lean ====
section
/-! DEFINITION. What the spec leaves to the implementation (00_scope.md R7, 92_eei_decisions.md,
open parameters), and the one value it leaves without a meaning. `CYCLES_PER_STEP` and `RESET_STYLE`
are used by no rule and are not modelled. -/

namespace Sys2Proof

/-- `HAS_TRACE` (60_exceptions.md R231, 92_eei_decisions.md D14): whether the core has the trace
port. Open: no value is known, so every claim holds with and without the port. -/
opaque Config.hasTrace : Bool

/-- `rotate_left` of the empty block by `n`: its modulus would be zero and the spec gives it no
meaning (40_bitvector_utilities.md R112, 93_implementation_defined.md U6). A free value; no caller
reads it. -/
opaque Config.rotateLeftOfEmpty : Nat → RawBlock

end Sys2Proof
end

