-- ==== Sys2Proof/Machine/FunctionLevel.lean ====
section
/-! DEFINITION. The function level as the source writes it: over sequences of elements of any length,
with the source's error conditions (files 40, 42 to 45; 60_exceptions.md R210 to R214, R219). The
machine's fixed-width functions are to agree with these on well-formed operands (00_scope.md R13). -/

namespace Sys2Proof.Machine

/-- `permute(input, table)`: `TableIndexOutOfRange` when an entry is not below the input's length;
no partial output is returned (R110). -/
def rawPermute (input : RawBlock) : List Nat → Except Condition RawBlock
  | [] => .ok []
  | idx :: rest =>
    match input[idx]? with
    | none => .error .tableIndexOutOfRange
    | some b =>
      match rawPermute input rest with
      | .error e => .error e
      | .ok out => .ok (b :: out)

/-- `xor(a, b)`: `LengthMismatch` when the widths differ (R111). -/
def rawXor (a b : RawBlock) : Except Condition RawBlock :=
  if a.length ≠ b.length then .error .lengthMismatch
  else .ok (List.zipWith (fun x y => (x + y) % 2) a b)

/-- `rotate_left(bits, n)`: `out[i] = bits[(i + n mod w) mod w]` (R112). Without a meaning for the
empty block (93 U6), where the result is a free value. -/
def rawRotateLeft (bits : RawBlock) (n : Nat) : RawBlock :=
  if bits.isEmpty then Config.rotateLeftOfEmpty n
  else (List.range bits.length).map fun i => bits.getD ((i + n % bits.length) % bits.length) 0

/-- The sub-block `b[i : i + len)` (00_scope.md R10). -/
def rawSlice (b : RawBlock) (i len : Nat) : RawBlock := (b.drop i).take len

/-- The loop of `generate_round_keys` after `n` rounds: K1..Kn, and C_n, D_n (R143). -/
def rawSchedule (pk : RawBlock) : (n : Nat) → Except Condition (Vector RawBlock n × RawBlock × RawBlock)
  | 0 => .ok (#v[], rawSlice pk 0 28, rawSlice pk 28 28)
  | n + 1 =>
    match rawSchedule pk n with
    | .error e => .error e
    | .ok (keys, c, d) =>
      let c' := rawRotateLeft c (shiftAmount n)
      let d' := rawRotateLeft d (shiftAmount n)
      match rawPermute (c' ++ d') tablePC2 with
      | .error e => .error e
      | .ok k => .ok (keys.push k, c', d')

/-- `generate_round_keys(key)`: the length is checked first, the bit values second, both before any
permutation (R140, R141). -/
def rawGenerateRoundKeys (key : RawBlock) : Except Condition (Vector RawBlock 16) :=
  match RawBlock.check key with
  | .error e => .error e
  | .ok _ =>
    match rawPermute key tablePC1 with
    | .error e => .error e
    | .ok pk =>
      match rawSchedule pk 16 with
      | .error e => .error e
      | .ok (keys, _, _) => .ok keys

/-- `bits_4(v)` (00_scope.md R9). -/
def rawNibble (v : Nat) : RawBlock := (List.range 4).map fun j => v / 2 ^ (3 - j) % 2

/-- The output nibble of chunk `c` at S-box `i` (R163). -/
def rawSBox (i : Nat) (c : RawBlock) : RawBlock :=
  rawNibble (sBoxCell i (2 * c.getD 0 0 + c.getD 5 0)
    (8 * c.getD 1 0 + 4 * c.getD 2 0 + 2 * c.getD 3 0 + c.getD 4 0))

/-- The substitution of a 48-bit value: chunk `i` is `x[6i : 6i+6)` (R163). -/
def rawSubstitute (x : RawBlock) : RawBlock :=
  ((List.range 8).map fun i => rawSBox i (rawSlice x (6 * i) 6)).flatten

/-- `feistel_f(right, round_key)` (R160, R165). -/
def rawFeistelF (right roundKey : RawBlock) : Except Condition RawBlock :=
  match rawPermute right tableE with
  | .error e => .error e
  | .ok e =>
    match rawXor e roundKey with
    | .error err => .error err
    | .ok x => rawPermute (rawSubstitute x) tableP

/-- The Feistel rounds of `process_block` after `n` rounds: (L_n, R_n) (R173, R174). -/
def rawRounds (keys : Vector RawBlock 16) (mode : Mode) (pb : RawBlock) :
    (n : Nat) → Except Condition (RawBlock × RawBlock)
  | 0 => .ok (rawSlice pb 0 32, rawSlice pb 32 32)
  | n + 1 =>
    match rawRounds keys mode pb n with
    | .error e => .error e
    | .ok (l, r) =>
      match rawFeistelF r keys[keyIndex mode (Fin.ofNat 16 n)] with
      | .error e => .error e
      | .ok f =>
        match rawXor l f with
        | .error e => .error e
        | .ok r' => .ok (r, r')

/-- `process_block(input, round_keys, mode)`: the input is checked before anything else; the type
fixes sixteen round keys and a two-valued mode (R170, R171; 93 U4). -/
def rawProcessBlock (input : RawBlock) (keys : Vector RawBlock 16) (mode : Mode) :
    Except Condition RawBlock :=
  match RawBlock.check input with
  | .error e => .error e
  | .ok _ =>
    match rawPermute input tableIP with
    | .error e => .error e
    | .ok pb =>
      match rawRounds keys mode pb 16 with
      | .error e => .error e
      | .ok (l, r) => rawPermute (r ++ l) tableFP

/-- `encrypt(plaintext, key)`: the key's conditions come before the plaintext's (R190). -/
def rawEncrypt (plaintext key : RawBlock) : Except Condition RawBlock :=
  match rawGenerateRoundKeys key with
  | .error e => .error e
  | .ok keys => rawProcessBlock plaintext keys .encrypt

/-- `decrypt(ciphertext, key)` (R191). -/
def rawDecrypt (ciphertext key : RawBlock) : Except Condition RawBlock :=
  match rawGenerateRoundKeys key with
  | .error e => .error e
  | .ok keys => rawProcessBlock ciphertext keys .decrypt

end Sys2Proof.Machine
end

