-- ==== Sys2Proof/Machine/Timing.lean ====
section
/-! DEFINITION. The step counts and phase sequences of the commands as the spec tabulates them
(70_reset_and_hazards.md R247; 44_block_driver.md R186), to be compared with the step machine. There
is no time in the model (R248). -/

namespace Sys2Proof.Machine

/-- The steps of a command from `ACCEPT` to the step that makes the core ready again, both counted,
when it is accepted with key valid `kv` (R247). -/
def commandSteps (i : Instr) (kv : Bool) : Nat :=
  match i with
  | .keygen _ => 18
  | .encblk _ => if kv then 20 else 1
  | .decblk _ => if kv then 20 else 1
  | .encrypt _ _ => 37
  | .decrypt _ _ => 37
  | .reserved000 => 1
  | .reserved001 => 1
  | .reserved011 => 1

/-- `KS(0)`, ..., `KS(16)`. -/
def keySchedulePhases : List Phase := (List.finRange 17).map Phase.ks

/-- `Initial`, `Permuted`, `Round[1]`, ..., `Round[16]`, `PreFinal`, `Final`. -/
def driverPhases : List Phase :=
  [.initial, .permuted] ++ (List.finRange 16).map Phase.round ++ [.preFinal, .final]

/-- The phase sequence of a command after acceptance (R186). -/
def commandPhases (i : Instr) (kv : Bool) : List Phase :=
  match i with
  | .keygen _ => keySchedulePhases ++ [.final]
  | .encblk _ => if kv then driverPhases else [.failed]
  | .decblk _ => if kv then driverPhases else [.failed]
  | .encrypt _ _ => keySchedulePhases ++ driverPhases
  | .decrypt _ _ => keySchedulePhases ++ driverPhases
  | .reserved000 => [.failed]
  | .reserved001 => [.failed]
  | .reserved011 => [.failed]

end Sys2Proof.Machine
end

