-- ==== Sys2Proof/Machine/Trace.lean ====
section
/-! DEFINITION. The optional trace port (60_exceptions.md R231; the phase encoding is 30_encoding.md
R97). It is an output only: no step reads anything of it. -/

namespace Sys2Proof.Machine

/-- The 6-bit encoding of a phase (R97). -/
def Phase.code : Phase → BitVec 6
  | .idle => 0
  | .ks i => BitVec.ofNat 6 (1 + i.val)
  | .initial => 18
  | .permuted => 19
  | .round i => BitVec.ofNat 6 (20 + i.val)
  | .preFinal => 36
  | .final => 37
  | .failed => 38

/-- One trace event: `trc_ph`, `trc_data`, `trc_key` (R231). -/
structure TraceEvent where
  /-- `trc_ph`. -/
  ph : BitVec 6
  /-- `trc_data`. -/
  data : BitVec 64
  /-- `trc_key`. -/
  key : BitVec 48
deriving DecidableEq, Repr

/-- The event's data of the key schedule: `zext_64(val(C ++ D))` (R231). -/
def State.traceKeyHalves (s : State) : BitVec 64 := (s.C ++ s.D).setWidth 64

/-- The event's data of the driver: `val(L ++ R)` (R231). -/
def State.traceRoundHalves (s : State) : BitVec 64 := s.L ++ s.R

/-- The event that the internal step from `s` to `t` emits, with the values written by the step. -/
def internalTrace (s t : State) : Option TraceEvent :=
  match s.PH with
  | .ks i =>
    if h : i.val < 16 then some ⟨t.PH.code, t.traceKeyHalves, readKey t.RK ⟨i.val, h⟩⟩ else none
  | .initial => some ⟨t.PH.code, t.traceRoundHalves, 0⟩
  | .permuted => some ⟨t.PH.code, t.traceRoundHalves, readKey s.RK (keyIndex (Opcode.mode s.OP) 0)⟩
  | .round i =>
    if h : i.val + 1 < 16 then
      some ⟨t.PH.code, t.traceRoundHalves, readKey s.RK (keyIndex (Opcode.mode s.OP) ⟨i.val + 1, h⟩)⟩
    else none
  | .preFinal => some ⟨t.PH.code, portOfBlock t.OUT, 0⟩
  | .idle => none
  | .final => none
  | .failed => none

/-- The event that `ACCEPT` leading to `t` emits: one for a key-bearing command, none for a failing
`ACCEPT` and none for `ENCBLK` and `DECBLK`. -/
def acceptTrace (t : State) : Option TraceEvent :=
  match t.PH with
  | .ks _ => some ⟨t.PH.code, t.traceKeyHalves, 0⟩
  | .idle => none
  | .initial => none
  | .permuted => none
  | .round _ => none
  | .preFinal => none
  | .final => none
  | .failed => none

/-- The event that the step of the step machine from `s` emits. Reset emits none (R231). -/
def State.traceEvent (s : State) : Option TraceEvent :=
  if s.port.rst then none
  else if s.PH.ready then
    if s.port.cmdValid then acceptTrace s.tick else none
  else internalTrace s s.tick

/-- The events of the next `n` steps of the step machine, the first first. -/
def State.traceRun : Nat → State → List TraceEvent
  | 0, _ => []
  | n + 1, s => s.traceEvent.toList ++ State.traceRun n s.tick

/-- The events of a key schedule of `key`, from its acceptance, by the event table of R231: C_0 and D_0
at `KS(0)`, then each round's halves and its new round key. -/
def scheduleTrace (key : Block) : List TraceEvent :=
  ⟨1, (keyC0 key ++ keyD0 key).setWidth 64, 0⟩ ::
    (List.range 16).map fun i =>
      ⟨BitVec.ofNat 6 (2 + i),
        ((scheduleState key (i + 1)).1 ++ (scheduleState key (i + 1)).2).setWidth 64,
        scheduledKey key (i + 1)⟩

/-- The events of a block operation by the event table of R231: L_0 and R_0, then each round's halves
and the round key it used, then the result. -/
def driverTrace (x : Block) (rk : RoundKeys) (mode : Mode) : List TraceEvent :=
  ⟨19, (initialHalves x).1 ++ (initialHalves x).2, 0⟩ ::
    ((List.range 16).map fun i =>
      ⟨BitVec.ofNat 6 (20 + i),
        (roundState rk mode x (i + 1)).1 ++ (roundState rk mode x (i + 1)).2,
        readKey rk (keyIndex mode (Fin.ofNat 16 i))⟩) ++
      [⟨37, processBlock x rk mode, 0⟩]

/-- The events of a whole command that is accepted with round keys `rk` and key valid `kv` (R231). -/
def commandTrace (i : Instr) (rk : RoundKeys) (kv : Bool) : List TraceEvent :=
  match i with
  | .keygen key => scheduleTrace key
  | .encblk block => if kv then driverTrace block rk .encrypt else []
  | .decblk block => if kv then driverTrace block rk .decrypt else []
  | .encrypt block key => scheduleTrace key ++ driverTrace block (generateRoundKeys key) .encrypt
  | .decrypt block key => scheduleTrace key ++ driverTrace block (generateRoundKeys key) .decrypt
  | .reserved000 => []
  | .reserved001 => []
  | .reserved011 => []

/-- The four signals of the trace port (10_state.md R30). -/
structure TracePort where
  /-- `trc_valid`. -/
  valid : Bool
  /-- `trc_ph`. -/
  ph : BitVec 6
  /-- `trc_data`. -/
  data : BitVec 64
  /-- `trc_key`. -/
  key : BitVec 48
deriving DecidableEq, Repr

/-- The signals while an event, or none, is emitted: `trc_valid` and the other three are zero when
there is none (R231). -/
def TracePort.ofEvent : Option TraceEvent → TracePort
  | some e => { valid := true, ph := e.ph, data := e.data, key := e.key }
  | none => { valid := false, ph := 0, data := 0, key := 0 }

/-- The trace port during the step from `s`: present only when `HAS_TRACE` (R231). -/
def State.tracePort (s : State) : Option TracePort :=
  if Config.hasTrace then some (TracePort.ofEvent s.traceEvent) else none

end Sys2Proof.Machine
end

