-- ==== Sys2Proof/Machine/Ports.lean ====
section
/-! DEFINITION. The output ports: functions of the state and of nothing else (10_state.md R30, R32). -/

namespace Sys2Proof.Machine

/-- The level outputs of the command and response ports (R30). -/
structure PortOutputs where
  /-- `cmd_ready`. -/
  cmdReady : Bool
  /-- `rsp_valid`. -/
  rspValid : Bool
  /-- `rsp_status`. -/
  rspStatus : Status
  /-- `rsp_block`. -/
  rspBlock : BitVec 64
deriving DecidableEq, Repr

/-- A phase in which a response is on the ports: `Final` or `Failed` (R32). -/
def Phase.responds : Phase → Bool
  | .final => true
  | .failed => true
  | .idle => false
  | .ks _ => false
  | .initial => false
  | .permuted => false
  | .round _ => false
  | .preFinal => false

/-- The outputs of a state (R32). -/
def State.outputs (s : State) : PortOutputs :=
  { cmdReady := s.PH.ready, rspValid := s.PH.responds, rspStatus := s.STATUS,
    rspBlock := portOfBlock s.OUT }

end Sys2Proof.Machine
end

