-- ==== Sys2Proof/Safety.lean ====
section
/-! DEFINITION. What counts as a good state of the core: the registers agree with the phase. -/

namespace Sys2Proof.Machine

/-- The phases of the block driver after acceptance and before completion. -/
def Phase.inDriver : Phase → Bool
  | .initial => true
  | .permuted => true
  | .round _ => true
  | .preFinal => true
  | .idle => false
  | .ks _ => false
  | .final => false
  | .failed => false

/-- The Feistel rounds done in a phase in which `L`, `R` hold a Round State of the block in `IN`
(10_state.md R31). -/
def Phase.roundsDone : Phase → Option Nat
  | .permuted => some 0
  | .round i => some (i.val + 1)
  | .preFinal => some 16
  | .idle => none
  | .ks _ => none
  | .initial => none
  | .final => none
  | .failed => none

/-- The opcodes that run the key schedule: `KEYGEN`, `ENCRYPT`, `DECRYPT` (45_entry_points.md R195). -/
def Opcode.keyBearing (op : Opcode) : Bool := op == 0b010#3 || op == 0b110#3 || op == 0b111#3

/-- The opcodes that use the round keys already in `RK`: `ENCBLK`, `DECBLK` (R196). -/
def Opcode.blockOnly (op : Opcode) : Bool := op == 0b100#3 || op == 0b101#3

/-- The reserved opcodes (30_encoding.md R93). -/
def Opcode.reserved (op : Opcode) : Bool := op == 0b000#3 || op == 0b001#3 || op == 0b011#3

/-- The invariant of the core. -/
structure State.Inv (s : State) : Prop where
  /-- In `Idle` the registers that reset defines hold their reset values (R37): a ready phase is left
  for `Idle` by the reset event only. -/
  idle : s.PH = .idle → s.KV = false ∧ s.STATUS = statusNone ∧ s.OUT = 0 ∧ s.OP = 0b000#3
  /-- While a command is in progress `STATUS` and `OUT` are zero (R27, R29, R32). -/
  busy : s.PH.ready = false → s.STATUS = statusNone ∧ s.OUT = 0
  /-- `KV` = 1 only when `RK` holds the complete schedule of one key (R25). -/
  keyed : s.KV = true → ∃ key, s.RK = generateRoundKeys key
  /-- In `KS(i)` the command is key-bearing, `KV` = 0, `C`, `D` hold C_i, D_i and `RK[1..i]` hold K1..Ki
  of one key (R31, R146). -/
  keySchedule : ∀ i, s.PH = .ks i →
    Opcode.keyBearing s.OP = true ∧ s.KV = false ∧
      ∃ key, (s.C, s.D) = scheduleState key i.val ∧
        ∀ j : Fin 16, j.val < i.val → readKey s.RK j = scheduledKey key (j.val + 1)
  /-- In the driver's phases the command processes a block and `KV` = 1 (R70, section 2 of
  44_block_driver.md). -/
  driver : s.PH.inDriver = true → s.OP.getLsbD 2 = true ∧ s.KV = true
  /-- `L`, `R` hold the Round State of the block in `IN` (R31, R180). -/
  rounds : ∀ n, s.PH.roundsDone = some n →
    (s.L, s.R) = roundState s.RK (Opcode.mode s.OP) s.IN n
  /-- In `Final` the command succeeded and `OUT` holds its result: the processed block, or zeros after
  `KEYGEN` (R27, R29, R31). -/
  final : s.PH = .final →
    s.STATUS = statusOk ∧ s.KV = true ∧
      ((s.OP = 0b010#3 ∧ s.OUT = 0) ∨
        (s.OP.getLsbD 2 = true ∧ s.OUT = processBlock s.IN s.RK (Opcode.mode s.OP)))
  /-- In `Failed` `OUT` is zero and `STATUS` is the one code that applies to the opcode (R29, R31,
  R210). -/
  failed : s.PH = .failed →
    s.OUT = 0 ∧
      ((s.STATUS = statusIllegalOp ∧ Opcode.reserved s.OP = true) ∨
        (s.STATUS = statusNoKey ∧ Opcode.blockOnly s.OP = true ∧ s.KV = false))

end Sys2Proof.Machine
end

