-- ==== Sys2Proof/Certificates/Slice0/Obligations.lean ====
section
/-! DEFINITION. The statements about the DES cipher core, each the formal text of what its docstring
cites. -/

open Sys2Proof Sys2Proof.Machine

/-! ## Reset -/

/-- 10_state.md R37: the specified registers after reset and the outputs. `RK`, `C`, `D`, `L`, `R`,
`IN` are unspecified and nothing is said of them. -/
def Obligations.ResetStateAsTabulated : Prop :=
  State.reset.PH = .idle ∧ State.reset.KV = false ∧ State.reset.STATUS = 0 ∧ State.reset.OUT = 0 ∧
    State.reset.OP = 0b000#3 ∧
    State.reset.outputs = { cmdReady := true, rspValid := false, rspStatus := 0, rspBlock := 0 }

/-- 70_reset_and_hazards.md R240: the reset event happens in any phase, whatever is presented, and
has priority over every other step. -/
def Obligations.ResetHasPriorityInEveryPhase : Prop :=
  ∀ s : State, s.port.rst = true →
    ∃ t, step s = .next t ∧ State.tick s = t ∧ t.PH = .idle ∧ t.KV = false ∧ t.STATUS = 0 ∧
      t.OUT = 0 ∧ t.OP = 0b000#3 ∧ t.inputs = s.inputs.tail

/-- 70_reset_and_hazards.md R241: a command during which the reset event falls is abandoned, with no
response and no value visible before, and `KV` = 0 after. -/
def Obligations.ResetAbandonsCommandInProgress : Prop :=
  ∀ (i : Instr) (s : State) (before : List PortSample) (p : PortSample) (after : List PortSample),
    s.PH.ready = true → s.inputs = before ++ p :: after → (∀ q ∈ before, q.rst = false) →
    p.rst = true → before.length + 1 < commandSteps i s.KV →
      (∃ t, exec i s = .next t ∧ t.PH = .idle ∧ t.KV = false ∧ t.STATUS = 0 ∧ t.OUT = 0 ∧
        t.OP = 0b000#3 ∧ t.inputs = after) ∧
      ∀ k ≤ before.length, (State.busyTick^[k] (State.accept i s)).outputs =
        { cmdReady := false, rspValid := false, rspStatus := 0, rspBlock := 0 }

/-! ## The step and the presented command -/

/-- A step is `exec` of the presented command (on a busy core `exec` makes it wait): of the command that
the ports decode to, at the state whose input history has moved past the present sample; and a command
presented with its own opcode and operands is the one executed. THE MODEL'S CHOICE, which
45_entry_points.md R203 and 70_reset_and_hazards.md R247 permit: that one step is the whole command
(notes/assumptions/3.md), that the history moves on by one sample (2.md), and that an unused operand is
presented as zeros (5.md). -/
def Obligations.StepRunsPresentedCommand : Prop :=
  (∀ s : State, s.port.rst = false → s.port.cmdValid = true →
    step s = exec (decodePorts s.port.cmdOp s.port.cmdBlock s.port.cmdKey) s.advance) ∧
  ∀ (i : Instr) (s : State) (rest : List PortSample), s.inputs = PortSample.present i :: rest →
    step s = exec i { s with inputs := rest }

/-- 45_entry_points.md R193, 70_reset_and_hazards.md R246: without a presented command a ready core
stays as it is, and its response stays on the outputs. -/
def Obligations.ReadyCoreKeepsResponse : Prop :=
  ∀ s : State, s.PH.ready = true → s.port.rst = false → s.port.cmdValid = false →
    step s = .next { s with inputs := s.inputs.tail } ∧
      ({ s with inputs := s.inputs.tail } : State).outputs = s.outputs

/-- 70_reset_and_hazards.md R243, 45_entry_points.md R202: a busy core does not accept a command. The
step is the one it takes without the command, and the command in progress is not disturbed. That `exec`
on a busy core is the enabled internal step is THE MODEL'S CHOICE (notes/assumptions/3.md). -/
def Obligations.BusyCoreDoesNotAccept : Prop :=
  ∀ (s : State) (p q : PortSample), s.PH.ready = false → p.rst = false → q.rst = false →
    step (s.withSample p) = step (s.withSample q) ∧
      step (s.withSample p) = .next (State.tick (s.withSample p)) ∧
      ∀ i : Instr, exec i s = .next (State.internalStep s)

/-- 30_encoding.md R94: an operand a command does not use has no effect whatever and is not stored in
any register. -/
def Obligations.UnusedOperandsHaveNoEffect : Prop :=
  ∀ (s : State) (p q : PortSample), p.rst = q.rst → p.cmdValid = q.cmdValid → p.cmdOp = q.cmdOp →
    (p.cmdOp ∈ [0b100#3, 0b101#3, 0b110#3, 0b111#3] → p.cmdBlock = q.cmdBlock) →
    (p.cmdOp ∈ [0b010#3, 0b110#3, 0b111#3] → p.cmdKey = q.cmdKey) →
      step (s.withSample p) = step (s.withSample q)

/-! ## The steps of the step machine -/

/-- 45_entry_points.md R195: `ACCEPT` of a key-bearing opcode. -/
def Obligations.AcceptOfKeyBearingCommand : Prop :=
  ∀ s : State, s.PH.ready = true → s.port.rst = false → s.port.cmdValid = true →
    s.port.cmdOp ∈ [0b010#3, 0b110#3, 0b111#3] →
      State.tick s = { s with
        OP := s.port.cmdOp, OUT := 0, STATUS := 0,
        C := slice (permute 56 tablePC1 s.port.cmdKey) 0 28,
        D := slice (permute 56 tablePC1 s.port.cmdKey) 28 28, KV := false,
        IN := if s.port.cmdOp.getLsbD 2 then s.port.cmdBlock else s.IN,
        PH := .ks 0, inputs := s.inputs.tail }

/-- 45_entry_points.md R196: `ACCEPT` of a block-only opcode, with and without a valid key. -/
def Obligations.AcceptOfBlockOnlyCommand : Prop :=
  ∀ s : State, s.PH.ready = true → s.port.rst = false → s.port.cmdValid = true →
    s.port.cmdOp ∈ [0b100#3, 0b101#3] →
      (s.KV = true → State.tick s = { s with
        OP := s.port.cmdOp, OUT := 0, STATUS := 0, IN := s.port.cmdBlock, PH := .initial,
        inputs := s.inputs.tail }) ∧
      (s.KV = false → State.tick s = { s with
        OP := s.port.cmdOp, OUT := 0, STATUS := 7, PH := .failed, inputs := s.inputs.tail })

/-- 45_entry_points.md R194: `ACCEPT` of a reserved opcode; the response is (`ILLEGAL_OP`, 0), and
the command is complete in this one step. -/
def Obligations.AcceptOfReservedOpcode : Prop :=
  ∀ s : State, s.PH.ready = true → s.port.rst = false → s.port.cmdValid = true →
    s.port.cmdOp ∈ [0b000#3, 0b001#3, 0b011#3] →
      State.tick s = { s with
        OP := s.port.cmdOp, OUT := 0, STATUS := 6, PH := .failed, inputs := s.inputs.tail } ∧
      step s = .next (State.tick s) ∧
      (State.tick s).outputs = { cmdReady := true, rspValid := true, rspStatus := 6, rspBlock := 0 }

/-- 42_key_schedule.md R146: step `KS-ROUND(i+1)`, with its frame. -/
def Obligations.KeyScheduleRoundStep : Prop :=
  ∀ (s : State) (i : Fin 16), s.PH = .ks i.castSucc → s.port.rst = false →
    step s = .next { s with
      C := rotateLeft s.C (shiftSchedule.getD i 0), D := rotateLeft s.D (shiftSchedule.getD i 0),
      RK := s.RK.set i (permute 48 tablePC2
        (rotateLeft s.C (shiftSchedule.getD i 0) ++ rotateLeft s.D (shiftSchedule.getD i 0))),
      PH := .ks i.succ, inputs := s.inputs.tail }

/-- 42_key_schedule.md R147: step `KS-DONE`, with its frame. -/
def Obligations.KeyScheduleDoneStep : Prop :=
  ∀ s : State, s.PH = .ks (Fin.last 16) → s.port.rst = false →
    (s.OP.getLsbD 2 = true →
      step s = .next { s with KV := true, PH := .initial, inputs := s.inputs.tail }) ∧
    (s.OP.getLsbD 2 = false →
      step s = .next { s with KV := true, STATUS := 1, PH := .final, inputs := s.inputs.tail })

/-- 44_block_driver.md R179: step `DRV-IP` writes `L`, `R`, `PH` and nothing else. -/
def Obligations.InitialPermutationStep : Prop :=
  ∀ s : State, s.PH = .initial → s.port.rst = false →
    step s = .next { s with
      L := slice (permute 64 tableIP s.IN) 0 32, R := slice (permute 64 tableIP s.IN) 32 32,
      PH := .permuted, inputs := s.inputs.tail }

/-- 44_block_driver.md R180: step `DRV-ROUND(i+1)`, with the key order of both modes and its frame.
Entry `i` of the store, from 0, is `RK[i+1]`; entry `15 - i` is `RK[17 - (i+1)]`. -/
def Obligations.FeistelRoundStep : Prop :=
  ∀ (s : State) (i : Fin 16),
    s.PH = (if i.val = 0 then Phase.permuted else Phase.round (Fin.ofNat 16 (i.val - 1))) →
    s.port.rst = false →
      (s.OP.getLsbD 0 = false → step s = .next { s with
        L := s.R, R := s.L ^^^ feistelF s.R (s.RK.get i), PH := .round i,
        inputs := s.inputs.tail }) ∧
      (s.OP.getLsbD 0 = true → step s = .next { s with
        L := s.R, R := s.L ^^^ feistelF s.R (s.RK.get (Fin.ofNat 16 (15 - i.val))), PH := .round i,
        inputs := s.inputs.tail })

/-- 44_block_driver.md R181, R182: step `DRV-PREFINAL` changes `PH` only; step `DRV-FINAL` writes
`OUT`, `STATUS`, `PH`, keeps `L` and `R`, and the response becomes valid. -/
def Obligations.FinalSteps : Prop :=
  (∀ s : State, s.PH = .round (Fin.last 15) → s.port.rst = false →
    step s = .next { s with PH := .preFinal, inputs := s.inputs.tail }) ∧
  ∀ s : State, s.PH = .preFinal → s.port.rst = false →
    ∃ t, step s = .next t ∧
      t = { s with
        OUT := permute 64 tableFP (s.R ++ s.L), STATUS := 1, PH := .final,
        inputs := s.inputs.tail } ∧
      t.outputs = {
        cmdReady := true, rspValid := true, rspStatus := 1,
        rspBlock := permute 64 tableFP (s.R ++ s.L) }

/-! ## The commands as a whole -/

/-- 42_key_schedule.md R148: `KEYGEN` from a ready phase to the next, with every register it writes;
`IN`, `L`, `R` are unchanged. Seventeen steps follow the acceptance. -/
def Obligations.KeygenCompletes : Prop :=
  ∀ (key : Block) (s : State), s.PH.ready = true → s.noResetFor 17 = true →
    exec (.keygen key) s = .next { s with
      RK := generateRoundKeys key, KV := true, OP := 0b010#3, OUT := 0, STATUS := 1, PH := .final,
      C := (scheduleState key 16).1, D := (scheduleState key 16).2, inputs := s.inputs.drop 17 }

/-- 44_block_driver.md R183: `ENCBLK` with a valid key; `RK`, `KV`, `C`, `D` are unchanged. -/
def Obligations.EncblkCompletes : Prop :=
  ∀ (block : Block) (s : State), s.PH.ready = true → s.KV = true → s.noResetFor 19 = true →
    exec (.encblk block) s = .next { s with
      OP := 0b100#3, IN := block, OUT := processBlock block s.RK .encrypt, STATUS := 1, PH := .final,
      L := (roundState s.RK .encrypt block 16).1, R := (roundState s.RK .encrypt block 16).2,
      inputs := s.inputs.drop 19 }

/-- 44_block_driver.md R184: `DECBLK` with a valid key. -/
def Obligations.DecblkCompletes : Prop :=
  ∀ (block : Block) (s : State), s.PH.ready = true → s.KV = true → s.noResetFor 19 = true →
    exec (.decblk block) s = .next { s with
      OP := 0b101#3, IN := block, OUT := processBlock block s.RK .decrypt, STATUS := 1, PH := .final,
      L := (roundState s.RK .decrypt block 16).1, R := (roundState s.RK .decrypt block 16).2,
      inputs := s.inputs.drop 19 }

/-- 44_block_driver.md R183, R184, 45_entry_points.md R196: without a valid key `ENCBLK` and `DECBLK`
fail with `NO_KEY` at once, and nothing but `OP`, `OUT`, `STATUS`, `PH` changes. -/
def Obligations.BlockCommandsWithoutKeyFail : Prop :=
  ∀ (block : Block) (s : State), s.PH.ready = true → s.KV = false →
    exec (.encblk block) s = .next { s with OP := 0b100#3, OUT := 0, STATUS := 7, PH := .failed } ∧
    exec (.decblk block) s = .next { s with OP := 0b101#3, OUT := 0, STATUS := 7, PH := .failed }

/-- 45_entry_points.md R197: `ENCRYPT` from a ready phase to the next. -/
def Obligations.EncryptCompletes : Prop :=
  ∀ (block key : Block) (s : State), s.PH.ready = true → s.noResetFor 36 = true →
    exec (.encrypt block key) s = .next { s with
      RK := generateRoundKeys key, KV := true, OP := 0b110#3, IN := block,
      OUT := processBlock block (generateRoundKeys key) .encrypt, STATUS := 1, PH := .final,
      C := (scheduleState key 16).1, D := (scheduleState key 16).2,
      L := (roundState (generateRoundKeys key) .encrypt block 16).1,
      R := (roundState (generateRoundKeys key) .encrypt block 16).2, inputs := s.inputs.drop 36 }

/-- 45_entry_points.md R198: `DECRYPT` from a ready phase to the next; `RK` is filled in generation
order. -/
def Obligations.DecryptCompletes : Prop :=
  ∀ (block key : Block) (s : State), s.PH.ready = true → s.noResetFor 36 = true →
    exec (.decrypt block key) s = .next { s with
      RK := generateRoundKeys key, KV := true, OP := 0b111#3, IN := block,
      OUT := processBlock block (generateRoundKeys key) .decrypt, STATUS := 1, PH := .final,
      C := (scheduleState key 16).1, D := (scheduleState key 16).2,
      L := (roundState (generateRoundKeys key) .decrypt block 16).1,
      R := (roundState (generateRoundKeys key) .decrypt block 16).2, inputs := s.inputs.drop 36 }

/-- 30_encoding.md R93: each reserved opcode, as a command of its own, completes by failing with
`ILLEGAL_OP` and changes nothing but `OP`, `STATUS`, `OUT` and `PH`. -/
def Obligations.ReservedCommandsFail : Prop :=
  ∀ s : State, s.PH.ready = true →
    exec .reserved000 s = .next { s with OP := 0b000#3, OUT := 0, STATUS := 6, PH := .failed } ∧
    exec .reserved001 s = .next { s with OP := 0b001#3, OUT := 0, STATUS := 6, PH := .failed } ∧
    exec .reserved011 s = .next { s with OP := 0b011#3, OUT := 0, STATUS := 6, PH := .failed }

/-- 45_entry_points.md R201: the one-command and the two-command forms end alike but for `OP`, and the
two-command form gives an extra response (`OK`, 0) first. That the two final states agree in `inputs`
too rests on THE MODEL'S CHOICE that `exec` uses up no sample for an acceptance (notes/assumptions/3.md):
17 + 19 samples for the two commands, 36 for the one. -/
def Obligations.KeygenThenBlockEqualsFullCipher : Prop :=
  ∀ (x key : Block) (s : State), s.PH.ready = true → s.noResetFor 36 = true →
    ∃ a b c d e, exec (.keygen key) s = .next a ∧
      a.outputs = { cmdReady := true, rspValid := true, rspStatus := 1, rspBlock := 0 } ∧
      exec (.encblk x) a = .next b ∧ exec (.decblk x) a = .next c ∧
      exec (.encrypt x key) s = .next d ∧ exec (.decrypt x key) s = .next e ∧
      d = { b with OP := 0b110#3 } ∧ b.OP = 0b100#3 ∧ e = { c with OP := 0b111#3 } ∧
      c.OP = 0b101#3 ∧
      d.outputs = {
        cmdReady := true, rspValid := true, rspStatus := 1, rspBlock := encryptBlock x key } ∧
      e.outputs = {
        cmdReady := true, rspValid := true, rspStatus := 1, rspBlock := decryptBlock x key }

/-- 45_entry_points.md R203, 70_reset_and_hazards.md R247, 44_block_driver.md R186: a step that runs a
command is the step machine's run of that command: it takes the tabulated number of steps, visits the
tabulated phases in order, and no host-visible output changes between its acceptance and its
completing step. -/
def Obligations.CommandIsRunOfStepMachine : Prop :=
  ∀ (s : State) (n : Nat), s.PH.ready = true → s.port.cmdValid = true →
    n = commandSteps s.port.command s.KV → s.noResetFor n = true →
      step s = .next (State.tick^[n] s) ∧
      ((List.range n).map fun k => (State.tick^[k + 1] s).PH) = commandPhases s.port.command s.KV ∧
      ∀ k, 0 < k → k < n → (State.tick^[k] s).outputs =
        { cmdReady := false, rspValid := false, rspStatus := 0, rspBlock := 0 }

/-! ## Whole-machine rules -/

/-- 20_memory.md R70: no step of a block operation, and no acceptance of `ENCBLK` or `DECBLK`, writes
`RK` or `KV`. -/
def Obligations.RoundKeysImmutableDuringBlockOperation : Prop :=
  (∀ s : State, s.PH.inDriver = true → s.port.rst = false →
    (State.tick s).RK = s.RK ∧ (State.tick s).KV = s.KV) ∧
  ∀ s : State, s.PH.ready = true → s.port.rst = false → s.port.cmdValid = true →
    s.port.cmdOp ∈ [0b100#3, 0b101#3] → (State.tick s).RK = s.RK ∧ (State.tick s).KV = s.KV

/-- 60_exceptions.md R218, R219: a failing command changes no state except `OP`, `OUT`, `STATUS` and
`PH`, and the one condition that applies is decided by the opcode, and for `NO_KEY` by `KV`. -/
def Obligations.FailuresArePrecise : Prop :=
  ∀ (i : Instr) (s t : State), s.PH.ready = true → exec i s = .next t → t.PH = .failed →
    t = { s with OP := i.opcode, OUT := 0, STATUS := t.STATUS, PH := .failed } ∧
      ((t.STATUS = 6 ∧ i.opcode ∈ [0b000#3, 0b001#3, 0b011#3]) ∨
        (t.STATUS = 7 ∧ s.KV = false ∧ i.opcode ∈ [0b100#3, 0b101#3]))

/-- 60_exceptions.md R220: presenting the same failing command again in the same state fails again
with the same code; and the next command runs from the failed state as from any other ready state. -/
def Obligations.FailingCommandFailsAgain : Prop :=
  ∀ (i : Instr) (s t : State), s.PH.ready = true → exec i s = .next t → t.PH = .failed →
    exec i t = .next t ∧ t.PH.ready = true ∧ ∀ j : Instr, exec j t = exec j s

/-- 60_exceptions.md R217, 44_block_driver.md R186: every step from every state answers a next state,
and so does every command; no step brings a code from 2 to 5 into `STATUS`; and a command from a ready
state ends in `Final` with `OK`, in `Failed` with `ILLEGAL_OP` or `NO_KEY`, or, only where a reset falls
within its steps, in `Idle` with 0. -/
def Obligations.SourceConditionsNeverReported : Prop :=
  (∀ s : State, ∃ t, step s = .next t ∧
    (s.STATUS ∈ [0, 1, 6, 7] → t.STATUS ∈ [0, 1, 6, 7])) ∧
  (∀ (i : Instr) (s : State), ∃ t, exec i s = .next t ∧
    (s.STATUS ∈ [0, 1, 6, 7] → t.STATUS ∈ [0, 1, 6, 7])) ∧
  ∀ (i : Instr) (s t : State), s.PH.ready = true → exec i s = .next t →
    (t.PH = .final ∧ t.STATUS = 1) ∨ (t.PH = .failed ∧ (t.STATUS = 6 ∨ t.STATUS = 7)) ∨
      (t.PH = .idle ∧ t.STATUS = 0 ∧ s.noResetFor (commandSteps i s.KV - 1) = false)

/-- No result depends on what an earlier command left in `C`, `D`, `L`, `R`, `IN`, nor on `RK` while
`KV` = 0 (10_state.md R36), nor on what it left in `OUT`, `OP`, `STATUS` (written by every acceptance,
45_entry_points.md R193; no result depends on `STATUS`, 10_state.md R29): two ready states that agree on
`KV`, on `RK` while it is valid, and on what the host does next respond alike to every command, and end
ready and in that agreement again. -/
def Obligations.LeftoverValuesHaveNoInfluence : Prop :=
  ∀ (i : Instr) (s t : State), s.PH.ready = true → t.PH.ready = true → s.KV = t.KV →
    (s.KV = true → s.RK = t.RK) → s.inputs = t.inputs →
      ∃ s' t', exec i s = .next s' ∧ exec i t = .next t' ∧ s'.outputs = t'.outputs ∧
        s'.KV = t'.KV ∧ (s'.KV = true → s'.RK = t'.RK) ∧ s'.PH = t'.PH ∧ s'.PH.ready = true ∧
        s'.inputs = t'.inputs

/-- The state after reset meets the invariant, whatever the host does next. -/
def Obligations.ResetStateMeetsInvariant : Prop :=
  ∀ inputs : List PortSample, ({ State.reset with inputs := inputs } : State).Inv

/-- Every step keeps the invariant of Safety.lean: the registers agree with the phase (10_state.md
R25, R27, R29, R31), from every state that meets it. -/
def Obligations.StepKeepsInvariant : Prop :=
  ∀ s t : State, s.Inv → step s = .next t → t.Inv

/-- Every step of the step machine keeps the invariant: also the states within a command meet it. -/
def Obligations.TickKeepsInvariant : Prop :=
  ∀ s : State, s.Inv → (State.tick s).Inv

/-- 10_state.md R32: what the host sees. While a command is in progress it sees nothing; in `Final`
the status is `OK`; in `Failed` it is an error code with an all-zero block. -/
def Obligations.OutputsShowNothingInProgress : Prop :=
  ∀ s : State, s.Inv →
    (s.PH.ready = false → s.outputs =
      { cmdReady := false, rspValid := false, rspStatus := 0, rspBlock := 0 }) ∧
    (s.PH = .idle → s.outputs =
      { cmdReady := true, rspValid := false, rspStatus := 0, rspBlock := 0 }) ∧
    (s.PH = .final → s.outputs =
      { cmdReady := true, rspValid := true, rspStatus := 1, rspBlock := s.OUT }) ∧
    (s.PH = .failed → ∃ code : Status, (code = 6 ∨ code = 7) ∧ s.outputs =
      { cmdReady := true, rspValid := true, rspStatus := code, rspBlock := 0 })

/-! ## The utilities and the tables -/

/-- 40_bitvector_utilities.md R110, R111, R112 on blocks of fixed width: `permute` is a gather,
`out[i] = input[table[i]]`; `xor` works bit by bit; `rotate_left` moves the bit at index `(i + n) mod
w` to index `i`. -/
def Obligations.UtilitiesBitByBit : Prop :=
  (∀ (m n : Nat) (table : List Nat) (x : BitVec n) (i : Nat), table.length = m → i < m →
    blockBit (permute m table x) i = blockBit x (table.getD i 0)) ∧
  (∀ (n : Nat) (a b : BitVec n) (i : Nat), i < n →
    blockBit (a ^^^ b) i = (blockBit a i != blockBit b i)) ∧
  ∀ (w : Nat) (b : BitVec w) (n i : Nat), i < w →
    blockBit (rotateLeft b n) i = blockBit b ((i + n) % w)

/-- 40_bitvector_utilities.md R110: the list form of `permute` copies `input[idx]` for each table
entry in order, and fails with `TableIndexOutOfRange`, without partial output, exactly when an entry
is not less than the input's length. -/
def Obligations.PermuteFailsExactlyOutOfRange : Prop :=
  ∀ (input : RawBlock) (table : List Nat),
    ((∀ idx ∈ table, idx < input.length) →
      ∃ out, rawPermute input table = .ok out ∧ out.length = table.length ∧
        ∀ i < table.length, out.getD i 0 = input.getD (table.getD i 0) 0) ∧
    ((∃ idx ∈ table, input.length ≤ idx) →
      rawPermute input table = .error .tableIndexOutOfRange)

/-- 41_table_repository.md R131 and the literals' own checks (R122 to R130): index ranges, lengths, `FP`
after `IP` on every block, `E`'s repetitions, `PC1`'s dropped positions; eight S-boxes of four rows of
sixteen cells, every cell in 0..15 and every row holding each value once; the shift schedule. -/
def Obligations.TablesMeetTheirInvariants : Prop :=
  (∀ idx ∈ tableIP ++ tableFP ++ tablePC1, idx < 64) ∧ (∀ idx ∈ tableE ++ tableP, idx < 32) ∧
  (∀ idx ∈ tablePC2, idx < 56) ∧
  (tableIP.length = 64 ∧ tableFP.length = 64 ∧ tableE.length = 48 ∧ tableP.length = 32 ∧
    tablePC1.length = 56 ∧ tablePC2.length = 48) ∧
  (∀ x : Block, permute 64 tableFP (permute 64 tableIP x) = x) ∧
  (∀ j < 32, tableE.count j = if j % 4 = 0 ∨ j % 4 = 3 then 2 else 1) ∧
  (∀ j < 64, tablePC1.count j = if j % 8 = 7 then 0 else 1) ∧
  sBoxes.length = 8 ∧ (∀ box ∈ sBoxes, box.length = 4) ∧
  (∀ box ∈ sBoxes, ∀ row ∈ box, row.length = 16 ∧ ∀ v ∈ row, v < 16) ∧
  (∀ box ∈ sBoxes, ∀ row ∈ box, ∀ v < 16, row.count v = 1) ∧
  shiftSchedule = [1, 1, 2, 2, 2, 2, 2, 2, 1, 2, 2, 2, 2, 2, 2, 1]

/-- 41_table_repository.md R124, R131, 90_conflicts.md C3: the two block permutations undo each other,
in both orders. -/
def Obligations.InitialAndFinalPermutationAreInverse : Prop :=
  ∀ x : Block, permute 64 tableFP (permute 64 tableIP x) = x ∧
    permute 64 tableIP (permute 64 tableFP x) = x

/-! ## The key schedule -/

/-- 42_key_schedule.md R143, R149 (b): the shifts accumulate, and after round 16 the halves are back
at C_0 and D_0. -/
def Obligations.KeyScheduleShiftsAccumulate : Prop :=
  ∀ key : Block,
    (∀ i ≤ 16, scheduleState key i =
      (rotateLeft (keyC0 key) (shiftSchedule.take i).sum,
        rotateLeft (keyD0 key) (shiftSchedule.take i).sum)) ∧
    scheduleState key 16 = (keyC0 key, keyD0 key)

/-- 42_key_schedule.md R149 (a): two keys that differ only in the last bit of each byte have the same
sixteen round keys. -/
def Obligations.ParityBitsAreIgnored : Prop :=
  ∀ k k' : Block, (∀ i < 64, i % 8 ≠ 7 → blockBit k i = blockBit k' i) →
    generateRoundKeys k = generateRoundKeys k'

/-- 42_key_schedule.md R149 (c): when C_0 and D_0 are each all zeros or all ones, all round keys are
equal, and `encrypt` and `decrypt` are the same function of the block. -/
def Obligations.ConstantHalvesGiveEqualRoundKeys : Prop :=
  ∀ key : Block, (keyC0 key = 0 ∨ keyC0 key = BitVec.allOnes 28) →
    (keyD0 key = 0 ∨ keyD0 key = BitVec.allOnes 28) →
      (∀ i j : Fin 16, (generateRoundKeys key).get i = (generateRoundKeys key).get j) ∧
      ∀ x : Block, encryptBlock x key = decryptBlock x key

/-- 42_key_schedule.md R145: after any two `KEYGEN` commands with the same key, `RK` holds the same
sixteen values, whatever the state was before. -/
def Obligations.KeyScheduleIsDeterministic : Prop :=
  ∀ (key : Block) (s s' t t' : State), s.PH.ready = true → s'.PH.ready = true →
    s.noResetFor 17 = true → s'.noResetFor 17 = true →
    exec (.keygen key) s = .next t → exec (.keygen key) s' = .next t' → t.RK = t'.RK

/-! ## The round function and the block driver -/

/-- 43_round_function.md R163: chunk `i` is `x[6i : 6i+6)`, its outer bits are the row, its inner bits
the column, and its nibble occupies bits `4i` to `4i+3` of the substitution output. -/
def Obligations.SubstitutionByChunks : Prop :=
  ∀ (x : RoundKey) (i : Nat), i < 8 →
    slice (substitute x) (4 * i) 4 =
      BitVec.ofNat 4 (sBoxCell i
        (2 * (blockBit x (6 * i)).toNat + (blockBit x (6 * i + 5)).toNat)
        (8 * (blockBit x (6 * i + 1)).toNat + 4 * (blockBit x (6 * i + 2)).toNat +
          2 * (blockBit x (6 * i + 3)).toNat + (blockBit x (6 * i + 4)).toNat))

/-- 43_round_function.md R166: `feistel_f` depends on its operands only through `permute(right, E) XOR
round_key`, so inverting every bit of both leaves it unchanged. -/
def Obligations.RoundFunctionUnchangedByInversion : Prop :=
  (∀ (r r' : Half) (k k' : RoundKey),
    permute 48 tableE r ^^^ k = permute 48 tableE r' ^^^ k' → feistelF r k = feistelF r' k') ∧
  ∀ (r : Half) (k : RoundKey), feistelF (~~~r) (~~~k) = feistelF r k

/-- 44_block_driver.md R177: for every block and every list of sixteen round keys, processing in one
mode and then in the other gives the block back. -/
def Obligations.ProcessBlockModesAreInverse : Prop :=
  ∀ (x : Block) (rk : RoundKeys),
    processBlock (processBlock x rk .encrypt) rk .decrypt = x ∧
    processBlock (processBlock x rk .decrypt) rk .encrypt = x

/-- 44_block_driver.md R177: in the decryption of a ciphertext, (L_i, R_i) is (R_(16-i), L_(16-i)) of
the encryption. -/
def Obligations.DecryptionMirrorsEncryption : Prop :=
  ∀ (x : Block) (rk : RoundKeys) (i : Nat), i ≤ 16 →
    roundState rk .decrypt (processBlock x rk .encrypt) i =
      ((roundState rk .encrypt x (16 - i)).2, (roundState rk .encrypt x (16 - i)).1)

/-- 44_block_driver.md R177, corner case: when all sixteen round keys are equal the two modes are the
same function, and applying it twice returns the input. -/
def Obligations.EqualRoundKeysMakeModesEqual : Prop :=
  ∀ (x : Block) (rk : RoundKeys), (∀ i j : Fin 16, rk.get i = rk.get j) →
    processBlock x rk .encrypt = processBlock x rk .decrypt ∧
    processBlock (processBlock x rk .encrypt) rk .encrypt = x

/-- 45_entry_points.md R192: the round trip, in both orders. -/
def Obligations.RoundTrip : Prop :=
  ∀ x key : Block, decryptBlock (encryptBlock x key) key = x ∧
    encryptBlock (decryptBlock x key) key = x

/-- 95_test_vectors.md V17: inverting every bit of key and input inverts every bit of the output. -/
def Obligations.InvertingKeyAndInputInvertsOutput : Prop :=
  ∀ x key : Block, encryptBlock (~~~x) (~~~key) = ~~~encryptBlock x key ∧
    decryptBlock (~~~x) (~~~key) = ~~~decryptBlock x key

/-- 95_test_vectors.md S2 and S7: the source's known-answer vector, and the value of its boundary
case. -/
def Obligations.KnownAnswers : Prop :=
  encryptBlock 0x0123456789ABCDEF 0x133457799BBCDFF1 = 0x85E813540F0AB405 ∧
    decryptBlock 0x85E813540F0AB405 0x133457799BBCDFF1 = 0x0123456789ABCDEF ∧
    encryptBlock 0 0 = 0x8CA64DE9C1B123A7

/-! ## The function level of the source -/

/-- 43_round_function.md R160, R165: on 32 and 48 bits the source's `feistel_f` fails in no way and
gives the fixed-width function's bits. -/
def Obligations.RoundFunctionAgreesWithSource : Prop :=
  ∀ (r : Half) (k : RoundKey),
    rawFeistelF (rawOfBits r) (rawOfBits k) = .ok (rawOfBits (feistelF r k))

/-- 42_key_schedule.md R140, 44_block_driver.md R170, 00_scope.md R13: on 64 valid bits the source's
`generate_round_keys`, `process_block`, `encrypt` and `decrypt` give the machine's results. -/
def Obligations.CipherAgreesWithSource : Prop :=
  ∀ (x key : Block) (rk : RoundKeys) (mode : Mode),
    rawGenerateRoundKeys (rawOfBits key) = .ok ((generateRoundKeys key).map rawOfBits) ∧
    rawProcessBlock (rawOfBits x) (rk.map rawOfBits) mode =
      .ok (rawOfBits (processBlock x rk mode)) ∧
    rawEncrypt (rawOfBits x) (rawOfBits key) = .ok (rawOfBits (encryptBlock x key)) ∧
    rawDecrypt (rawOfBits x) (rawOfBits key) = .ok (rawOfBits (decryptBlock x key))

/-- 60_exceptions.md R211, R212, R219, 45_entry_points.md R190: which condition a malformed call
raises: the key before the block, and for each the length before the bit values; a well-formed call
raises none. -/
def Obligations.MalformedCallsRaiseTheFirstCondition : Prop :=
  ∀ (cipher : RawBlock → RawBlock → Except Condition RawBlock) (block key : RawBlock),
    cipher = rawEncrypt ∨ cipher = rawDecrypt →
      (key.length ≠ 64 → cipher block key = .error .invalidLength) ∧
      (key.length = 64 → (∃ x ∈ key, x ≠ 0 ∧ x ≠ 1) →
        cipher block key = .error .invalidBitValue) ∧
      (key.length = 64 → (∀ x ∈ key, x = 0 ∨ x = 1) → block.length ≠ 64 →
        cipher block key = .error .invalidLength) ∧
      (key.length = 64 → (∀ x ∈ key, x = 0 ∨ x = 1) → block.length = 64 →
        (∃ x ∈ block, x ≠ 0 ∧ x ≠ 1) → cipher block key = .error .invalidBitValue) ∧
      (key.length = 64 → (∀ x ∈ key, x = 0 ∨ x = 1) → block.length = 64 →
        (∀ x ∈ block, x = 0 ∨ x = 1) → ∃ out, cipher block key = .ok out ∧ out.length = 64)

/-- 30_encoding.md R100, 00_scope.md R13, 45_entry_points.md R203, 60_exceptions.md R217: a call of the
source and the command that stands for it agree. For each of the four functions, a wrapper reports the
call's condition, or presents a command whose response is the call's result, bit for bit; the results of
`generate_round_keys` are left in `RK`, behind a response (`OK`, 0); `process_block` runs under the
round keys in `RK`, and without valid ones its command fails with `NO_KEY`. -/
def Obligations.PresentedCallsGiveTheSourceResult : Prop :=
  ∀ (block key : RawBlock) (mode : Mode) (s : State), s.PH.ready = true → s.noResetFor 36 = true →
    (∀ e, rawGenerateRoundKeys key = .error e →
      Call.present (.generateRoundKeys key) = .error e) ∧
    (∀ keys, rawGenerateRoundKeys key = .ok keys →
      ∃ i t, Call.present (.generateRoundKeys key) = .ok i ∧ exec i s = .next t ∧
        t.outputs.rspStatus = 1 ∧ t.outputs.rspBlock = 0 ∧ t.KV = true ∧
        t.RK.map rawOfBits = keys) ∧
    (∀ e, rawProcessBlock block (s.RK.map rawOfBits) mode = .error e →
      Call.present (.processBlock block mode) = .error e) ∧
    (∀ out, rawProcessBlock block (s.RK.map rawOfBits) mode = .ok out →
      ∃ i t, Call.present (.processBlock block mode) = .ok i ∧ exec i s = .next t ∧
        (s.KV = true → t.outputs.rspStatus = 1 ∧ rawOfBits t.outputs.rspBlock = out) ∧
        (s.KV = false → t.outputs.rspStatus = 7 ∧ t.outputs.rspBlock = 0)) ∧
    (∀ e, rawEncrypt block key = .error e → Call.present (.encrypt block key) = .error e) ∧
    (∀ out, rawEncrypt block key = .ok out → ∃ i t, Call.present (.encrypt block key) = .ok i ∧
      exec i s = .next t ∧ t.outputs.rspStatus = 1 ∧ rawOfBits t.outputs.rspBlock = out) ∧
    (∀ e, rawDecrypt block key = .error e → Call.present (.decrypt block key) = .error e) ∧
    (∀ out, rawDecrypt block key = .ok out → ∃ i t, Call.present (.decrypt block key) = .ok i ∧
      exec i s = .next t ∧ t.outputs.rspStatus = 1 ∧ rawOfBits t.outputs.rspBlock = out)

/-! ## Encoding, ports and trace -/

/-- 30_encoding.md R90 to R93: decoding the encoded word of a command gives the command back, with
every operand at every value. -/
def Obligations.DecodeOfEncode : Prop :=
  ∀ i : Instr, decode (encode i).toNat = .ok i

/-- 30_encoding.md R90, R92, R94: two presented commands decode alike exactly when their opcodes agree
and so do the operands that the opcode uses. -/
def Obligations.DecodingSeparatesCommands : Prop :=
  ∀ (op op' : Opcode) (block block' key key' : Block),
    decodePorts op block key = decodePorts op' block' key' ↔
      op = op' ∧ (op ∈ [0b100#3, 0b101#3, 0b110#3, 0b111#3] → block = block') ∧
        (op ∈ [0b010#3, 0b110#3, 0b111#3] → key = key')

/-- 95_test_vectors.md, every word of P1, P2 and P3 and the word of V1, written out from the encoding of
R90, decode to the commands they stand for; so does a word with only bit 127, the top bit of the block
field, set; and a number with a bit above bit 130 is refused. -/
def Obligations.WordsDecodeAsWritten : Prop :=
  decode 0x20000000000000000133457799BBCDFF1 = .ok (.keygen 0x133457799BBCDFF1) ∧
  decode 0x40123456789ABCDEF0000000000000000 = .ok (.encblk 0x0123456789ABCDEF) ∧
  decode 0x585E813540F0AB4050000000000000000 = .ok (.decblk 0x85E813540F0AB405) ∧
  decode 0x60123456789ABCDEF133457799BBCDFF1 =
    .ok (.encrypt 0x0123456789ABCDEF 0x133457799BBCDFF1) ∧
  decode 0x600000000000000000000000000000000 = .ok (.encrypt 0 0) ∧
  decode 0x78CA64DE9C1B123A70000000000000000 = .ok (.decrypt 0x8CA64DE9C1B123A7 0) ∧
  decode 0x000000000000000000000000000000000 = .ok .reserved000 ∧
  decode 0x10123456789ABCDEF133457799BBCDFF1 = .ok .reserved001 ∧
  decode 0x30123456789ABCDEF133457799BBCDFF1 = .ok .reserved011 ∧
  decode 0x80000000000000000000000000000000 = .ok .reserved000 ∧
  decode 0x800000000000000000000000000000000 = .error .wordTooWide

/-- 20_memory.md R62: block bit `i` is port bit `63 - i`, on the operand ports and on `rsp_block`. -/
def Obligations.PortBitOrder : Prop :=
  (∀ (p : BitVec 64) (i : Nat), i < 64 → blockBit (blockOfPort p) i = portBit p (63 - i)) ∧
  ∀ (s : State) (i : Nat), i < 64 → portBit s.outputs.rspBlock (63 - i) = blockBit s.OUT i

/-- 30_encoding.md R97: the encoding of the phases, one number each, none of 39 to 63. -/
def Obligations.PhaseEncoding : Prop :=
  Phase.code .idle = 0 ∧ (∀ i : Fin 17, (Phase.code (.ks i)).toNat = 1 + i.val) ∧
  Phase.code .initial = 18 ∧ Phase.code .permuted = 19 ∧
  (∀ i : Fin 16, (Phase.code (.round i)).toNat = 19 + (i.val + 1)) ∧
  Phase.code .preFinal = 36 ∧ Phase.code .final = 37 ∧ Phase.code .failed = 38 ∧
  (∀ p : Phase, (Phase.code p).toNat < 39) ∧ ∀ p q : Phase, Phase.code p = Phase.code q → p = q

/-- 60_exceptions.md R231: the events that each command emits on the trace hook, in order and with
their data, over the steps of the command. -/
def Obligations.TraceOfEveryCommand : Prop :=
  ∀ s : State, s.PH.ready = true → s.port.cmdValid = true →
    s.noResetFor (commandSteps s.port.command s.KV) = true →
      State.traceRun (commandSteps s.port.command s.KV) s = commandTrace s.port.command s.RK s.KV
end

