-- ==== Sys2Proof/Laws/Bits.lean ====
section
/-! SUPPORT. The Bit-Vector Utilities, bit by bit: each block operation read at one index. -/

namespace Sys2Proof.Machine

/-- `val` of a sequence continued by one more bit. -/
theorem val_append_singleton (bits : List Bool) (b : Bool) :
    val (bits ++ [b]) = 2 * val bits + b.toNat := by
  simp [val, List.foldl_append]

/-- `val` of `n` bits is below `2^n`. -/
theorem val_lt (bits : List Bool) : val bits < 2 ^ bits.length := by
  induction bits using List.reverseRecOn with
  | nil => simp [val]
  | append_singleton bits b ih =>
    rw [val_append_singleton, List.length_append, List.length_singleton, pow_succ]
    have : b.toNat ≤ 1 := Bool.toNat_le b
    omega

/-- Bit `i` of `val`, counted from the last bit. -/
theorem testBit_val (bits : List Bool) (i : Nat) :
    (val bits).testBit i = bits.reverse.getD i false := by
  induction bits using List.reverseRecOn generalizing i with
  | nil => simp [val]
  | append_singleton bits b ih =>
    rw [val_append_singleton, List.reverse_append]
    cases i with
    | zero => cases b <;> simp [Nat.testBit_zero]
    | succ i =>
      have h : (2 * val bits + b.toNat) / 2 = val bits := by
        have : b.toNat ≤ 1 := Bool.toNat_le b
        omega
      rw [Nat.testBit_succ, h, ih]
      simp

/-- Bit `i` of `bits_m`: the `i`-th of the given bits. -/
theorem getMsbD_ofBits {m : Nat} {bits : List Bool} (h : bits.length = m) (i : Nat) :
    (ofBits m bits).getMsbD i = bits.getD i false := by
  unfold ofBits
  rw [BitVec.getMsbD_eq_getLsbD, BitVec.getLsbD_ofNat, testBit_val]
  by_cases hi : i < m
  · have hr : m - 1 - i < bits.reverse.length := by simp [h]; omega
    have hb : i < bits.length := by omega
    rw [List.getD_eq_getElem _ _ hr, List.getD_eq_getElem _ _ hb, List.getElem_reverse]
    have : bits.length - 1 - (m - 1 - i) = i := by omega
    simp [this, hi]
    omega
  · rw [List.getD_eq_default bits false (by omega)]
    simp [hi]

/-- Bit `i` of `permute(input, table)`: input bit `table[i]`. -/
theorem getMsbD_permute {m n : Nat} {table : List Nat} (h : table.length = m)
    (input : BitVec n) {i : Nat} (hi : i < m) :
    (permute m table input).getMsbD i = input.getMsbD (table.getD i 0) := by
  unfold permute
  rw [getMsbD_ofBits (by simpa using h), List.getD_eq_getElem _ _ (by simp [h, hi]),
    List.getD_eq_getElem _ _ (by omega)]
  simp

/-- Past its width a permuted block has no bits. -/
theorem getMsbD_permute_of_ge {m n : Nat} {table : List Nat} (input : BitVec n) {i : Nat}
    (hi : m ≤ i) : (permute m table input).getMsbD i = false :=
  BitVec.getMsbD_of_ge _ _ hi

/-- Two blocks of one width are equal when every bit is. -/
theorem eq_of_getMsbD {w : Nat} {x y : BitVec w} (h : ∀ i < w, x.getMsbD i = y.getMsbD i) : x = y :=
  BitVec.eq_of_getMsbD_eq h

/-- Permuting depends on the input bits that the table names and on no other. -/
theorem permute_congr {m n : Nat} {table : List Nat} {x y : BitVec n}
    (h : ∀ idx ∈ table, x.getMsbD idx = y.getMsbD idx) : permute m table x = permute m table y := by
  unfold permute
  rw [List.map_congr_left h]

/-- Permuting commutes with XOR. -/
theorem permute_xor {m n : Nat} {table : List Nat} (h : table.length = m) (x y : BitVec n) :
    permute m table (x ^^^ y) = permute m table x ^^^ permute m table y := by
  apply eq_of_getMsbD
  intro i hi
  rw [BitVec.getMsbD_xor, getMsbD_permute h _ hi, getMsbD_permute h _ hi, getMsbD_permute h _ hi,
    BitVec.getMsbD_xor]

/-- Permuting commutes with inversion when every table entry is below the input width. -/
theorem permute_not {m n : Nat} {table : List Nat} (h : table.length = m)
    (hlt : ∀ idx ∈ table, idx < n) (x : BitVec n) :
    permute m table (~~~x) = ~~~permute m table x := by
  apply eq_of_getMsbD
  intro i hi
  have hm : table.getD i 0 < n := by
    rw [List.getD_eq_getElem _ _ (by omega)]
    exact hlt _ (List.getElem_mem _)
  rw [BitVec.getMsbD_not, getMsbD_permute h _ hi, getMsbD_permute h _ hi, BitVec.getMsbD_not,
    decide_eq_true hm, decide_eq_true hi, Bool.true_and]

/-- Bit `j` of the sub-block `b[i : i+len)` is bit `i + j` of `b`. -/
theorem getMsbD_slice {n : Nat} (b : BitVec n) {i len j : Nat} (h : i + len ≤ n) (hj : j < len) :
    (slice b i len).getMsbD j = b.getMsbD (i + j) := by
  unfold slice
  rw [BitVec.getMsbD_eq_getLsbD, BitVec.getLsbD_extractLsb', BitVec.getMsbD_eq_getLsbD]
  have h1 : len - 1 - j < len := by omega
  have h2 : n - (i + len) + (len - 1 - j) = n - 1 - (i + j) := by omega
  have h3 : i + j < n := by omega
  simp [hj, h1, h2, h3]

/-- Taking a sub-block commutes with XOR. -/
theorem slice_xor {n : Nat} (a b : BitVec n) {i len : Nat} (h : i + len ≤ n) :
    slice (a ^^^ b) i len = slice a i len ^^^ slice b i len := by
  apply eq_of_getMsbD
  intro j hj
  rw [BitVec.getMsbD_xor, getMsbD_slice _ h hj, getMsbD_slice _ h hj, getMsbD_slice _ h hj,
    BitVec.getMsbD_xor]

/-- Taking a sub-block commutes with inversion. -/
theorem slice_not {n : Nat} (a : BitVec n) {i len : Nat} (h : i + len ≤ n) :
    slice (~~~a) i len = ~~~slice a i len := by
  apply eq_of_getMsbD
  intro j hj
  rw [BitVec.getMsbD_not, getMsbD_slice _ h hj, getMsbD_slice _ h hj, BitVec.getMsbD_not]
  simp [hj, show i + j < n by omega]

/-- The first part of a concatenation. -/
theorem slice_append_left {m n : Nat} (a : BitVec m) (b : BitVec n) : slice (a ++ b) 0 m = a := by
  apply eq_of_getMsbD
  intro j hj
  rw [getMsbD_slice _ (by omega) hj, BitVec.getMsbD_append]
  simp [hj]

/-- The second part of a concatenation. -/
theorem slice_append_right {m n : Nat} (a : BitVec m) (b : BitVec n) : slice (a ++ b) m n = b := by
  apply eq_of_getMsbD
  intro j hj
  rw [getMsbD_slice _ (by omega) hj, BitVec.getMsbD_append]
  simp

/-- A block is the concatenation of its two parts. -/
theorem slice_append_slice {m n : Nat} (x : BitVec (m + n)) : slice x 0 m ++ slice x m n = x := by
  apply eq_of_getMsbD
  intro i hi
  rw [BitVec.getMsbD_append]
  by_cases h : i < m
  · rw [getMsbD_slice _ (by omega) h]; simp [h]
  · rw [getMsbD_slice _ (by omega) (by omega)]
    simp [h, show m + (i - m) = i by omega]

/-- Bit `i` of a left rotation: bit `(i + n) mod w` (R112). -/
theorem getMsbD_rotateLeft' {w : Nat} (b : BitVec w) (n i : Nat) (hi : i < w) :
    (rotateLeft b n).getMsbD i = b.getMsbD ((i + n) % w) := by
  unfold rotateLeft
  rw [BitVec.getMsbD_rotateLeft, Nat.add_comm]
  simp [hi]

/-- Rotations accumulate. -/
theorem rotateLeft_rotateLeft {w : Nat} (b : BitVec w) (m n : Nat) :
    rotateLeft (rotateLeft b m) n = rotateLeft b (m + n) := by
  apply eq_of_getMsbD
  intro i hi
  rw [getMsbD_rotateLeft' _ _ _ hi, getMsbD_rotateLeft' _ _ _ (Nat.mod_lt _ (by omega)),
    getMsbD_rotateLeft' _ _ _ hi]
  congr 1
  rw [Nat.mod_add_mod]
  congr 1
  omega

/-- A rotation by a multiple of the width changes nothing. -/
theorem rotateLeft_of_dvd {w : Nat} (b : BitVec w) {n : Nat} (h : n % w = 0) : rotateLeft b n = b := by
  apply eq_of_getMsbD
  intro i hi
  rw [getMsbD_rotateLeft' _ _ _ hi]
  congr 1
  rw [Nat.add_mod, h, Nat.add_zero, Nat.mod_mod, Nat.mod_eq_of_lt hi]

/-- Rotation commutes with inversion. -/
theorem rotateLeft_not {w : Nat} (b : BitVec w) (n : Nat) :
    rotateLeft (~~~b) n = ~~~rotateLeft b n := by
  apply eq_of_getMsbD
  intro i hi
  rw [BitVec.getMsbD_not, getMsbD_rotateLeft' _ _ _ hi, getMsbD_rotateLeft' _ _ _ hi,
    BitVec.getMsbD_not]
  simp [hi, Nat.mod_lt (i + n) (show 0 < w by omega)]

end Sys2Proof.Machine
end

