-- ==== Sys2Proof/Laws/Codec.lean ====
section
/-! SUPPORT. The fields of a command word, and the ports' decoding of a command's own fields. -/

namespace Sys2Proof

/-- The `op` field of a command word. -/
theorem extract_op (op : Opcode) (block key : Block) :
    (op ++ block ++ key : CommandWord).extractLsb' 128 3 = op := by
  apply BitVec.eq_of_getLsbD_eq
  intro i hi
  have h1 : ¬ 128 + i < 64 := by omega
  have h2 : ¬ 128 + i - 64 < 64 := by omega
  have h3 : 128 + i - 64 - 64 = i := by omega
  rw [BitVec.getLsbD_extractLsb', BitVec.getLsbD_append, BitVec.getLsbD_append]
  simp [h1, h2, h3, hi]

/-- The `block` field of a command word. -/
theorem extract_block (op : Opcode) (block key : Block) :
    (op ++ block ++ key : CommandWord).extractLsb' 64 64 = block := by
  apply BitVec.eq_of_getLsbD_eq
  intro i hi
  have h1 : ¬ 64 + i < 64 := by omega
  have h2 : 64 + i - 64 = i := by omega
  rw [BitVec.getLsbD_extractLsb', BitVec.getLsbD_append, BitVec.getLsbD_append]
  simp [h1, h2, hi]

/-- The `key` field of a command word. -/
theorem extract_key (op : Opcode) (block key : Block) :
    (op ++ block ++ key : CommandWord).extractLsb' 0 64 = key := by
  apply BitVec.eq_of_getLsbD_eq
  intro i hi
  rw [BitVec.getLsbD_extractLsb', BitVec.getLsbD_append]
  simp [hi]

/-- The command that presents its own opcode and operands decodes to itself. -/
theorem decodePorts_self (i : Instr) : decodePorts i.opcode i.blockOperand i.keyOperand = i := by
  cases i <;> simp [decodePorts, Instr.opcode, Instr.blockOperand, Instr.keyOperand]

/-- A property of every opcode, by the eight opcodes. -/
theorem forall_opcode {p : Opcode → Prop} (h : ∀ n : Fin 8, p (BitVec.ofFin n)) (op : Opcode) :
    p op := h op.toFin

end Sys2Proof
end

