-- ==== Sys2Proof/Laws/State.lean ====
section
/-! SUPPORT. What each shared operation leaves in each register: one lemma per field per operation. -/

namespace Sys2Proof.Machine

/-! ### `enter` -/

@[simp] theorem enter_C (p : Phase) (s : State) : (State.enter p s).C = s.C := rfl
@[simp] theorem enter_D (p : Phase) (s : State) : (State.enter p s).D = s.D := rfl
@[simp] theorem enter_RK (p : Phase) (s : State) : (State.enter p s).RK = s.RK := rfl
@[simp] theorem enter_KV (p : Phase) (s : State) : (State.enter p s).KV = s.KV := rfl
@[simp] theorem enter_IN (p : Phase) (s : State) : (State.enter p s).IN = s.IN := rfl
@[simp] theorem enter_L (p : Phase) (s : State) : (State.enter p s).L = s.L := rfl
@[simp] theorem enter_R (p : Phase) (s : State) : (State.enter p s).R = s.R := rfl
@[simp] theorem enter_OUT (p : Phase) (s : State) : (State.enter p s).OUT = s.OUT := rfl
@[simp] theorem enter_OP (p : Phase) (s : State) : (State.enter p s).OP = s.OP := rfl
@[simp] theorem enter_STATUS (p : Phase) (s : State) : (State.enter p s).STATUS = s.STATUS := rfl
@[simp] theorem enter_PH (p : Phase) (s : State) : (State.enter p s).PH = p := rfl
@[simp] theorem enter_inputs (p : Phase) (s : State) : (State.enter p s).inputs = s.inputs := rfl

/-! ### `setStatus` -/

@[simp] theorem setStatus_C (code : Status) (s : State) : (State.setStatus code s).C = s.C := rfl
@[simp] theorem setStatus_D (code : Status) (s : State) : (State.setStatus code s).D = s.D := rfl
@[simp] theorem setStatus_RK (code : Status) (s : State) : (State.setStatus code s).RK = s.RK := rfl
@[simp] theorem setStatus_KV (code : Status) (s : State) : (State.setStatus code s).KV = s.KV := rfl
@[simp] theorem setStatus_IN (code : Status) (s : State) : (State.setStatus code s).IN = s.IN := rfl
@[simp] theorem setStatus_L (code : Status) (s : State) : (State.setStatus code s).L = s.L := rfl
@[simp] theorem setStatus_R (code : Status) (s : State) : (State.setStatus code s).R = s.R := rfl
@[simp] theorem setStatus_OUT (code : Status) (s : State) : (State.setStatus code s).OUT = s.OUT := rfl
@[simp] theorem setStatus_OP (code : Status) (s : State) : (State.setStatus code s).OP = s.OP := rfl
@[simp] theorem setStatus_STATUS (code : Status) (s : State) : (State.setStatus code s).STATUS = code := rfl
@[simp] theorem setStatus_PH (code : Status) (s : State) : (State.setStatus code s).PH = s.PH := rfl
@[simp] theorem setStatus_inputs (code : Status) (s : State) : (State.setStatus code s).inputs = s.inputs := rfl

/-! ### `setKeyValid` -/

@[simp] theorem setKeyValid_C (v : Bool) (s : State) : (State.setKeyValid v s).C = s.C := rfl
@[simp] theorem setKeyValid_D (v : Bool) (s : State) : (State.setKeyValid v s).D = s.D := rfl
@[simp] theorem setKeyValid_RK (v : Bool) (s : State) : (State.setKeyValid v s).RK = s.RK := rfl
@[simp] theorem setKeyValid_KV (v : Bool) (s : State) : (State.setKeyValid v s).KV = v := rfl
@[simp] theorem setKeyValid_IN (v : Bool) (s : State) : (State.setKeyValid v s).IN = s.IN := rfl
@[simp] theorem setKeyValid_L (v : Bool) (s : State) : (State.setKeyValid v s).L = s.L := rfl
@[simp] theorem setKeyValid_R (v : Bool) (s : State) : (State.setKeyValid v s).R = s.R := rfl
@[simp] theorem setKeyValid_OUT (v : Bool) (s : State) : (State.setKeyValid v s).OUT = s.OUT := rfl
@[simp] theorem setKeyValid_OP (v : Bool) (s : State) : (State.setKeyValid v s).OP = s.OP := rfl
@[simp] theorem setKeyValid_STATUS (v : Bool) (s : State) : (State.setKeyValid v s).STATUS = s.STATUS := rfl
@[simp] theorem setKeyValid_PH (v : Bool) (s : State) : (State.setKeyValid v s).PH = s.PH := rfl
@[simp] theorem setKeyValid_inputs (v : Bool) (s : State) : (State.setKeyValid v s).inputs = s.inputs := rfl

/-! ### `writeKey` -/

@[simp] theorem writeKey_C (i : Fin 16) (k : RoundKey) (s : State) : (State.writeKey i k s).C = s.C := rfl
@[simp] theorem writeKey_D (i : Fin 16) (k : RoundKey) (s : State) : (State.writeKey i k s).D = s.D := rfl
@[simp] theorem writeKey_RK (i : Fin 16) (k : RoundKey) (s : State) : (State.writeKey i k s).RK = s.RK.set i k := rfl
@[simp] theorem writeKey_KV (i : Fin 16) (k : RoundKey) (s : State) : (State.writeKey i k s).KV = s.KV := rfl
@[simp] theorem writeKey_IN (i : Fin 16) (k : RoundKey) (s : State) : (State.writeKey i k s).IN = s.IN := rfl
@[simp] theorem writeKey_L (i : Fin 16) (k : RoundKey) (s : State) : (State.writeKey i k s).L = s.L := rfl
@[simp] theorem writeKey_R (i : Fin 16) (k : RoundKey) (s : State) : (State.writeKey i k s).R = s.R := rfl
@[simp] theorem writeKey_OUT (i : Fin 16) (k : RoundKey) (s : State) : (State.writeKey i k s).OUT = s.OUT := rfl
@[simp] theorem writeKey_OP (i : Fin 16) (k : RoundKey) (s : State) : (State.writeKey i k s).OP = s.OP := rfl
@[simp] theorem writeKey_STATUS (i : Fin 16) (k : RoundKey) (s : State) : (State.writeKey i k s).STATUS = s.STATUS := rfl
@[simp] theorem writeKey_PH (i : Fin 16) (k : RoundKey) (s : State) : (State.writeKey i k s).PH = s.PH := rfl
@[simp] theorem writeKey_inputs (i : Fin 16) (k : RoundKey) (s : State) : (State.writeKey i k s).inputs = s.inputs := rfl

/-! ### `beginCommand` -/

@[simp] theorem beginCommand_C (op : Opcode) (s : State) : (State.beginCommand op s).C = s.C := rfl
@[simp] theorem beginCommand_D (op : Opcode) (s : State) : (State.beginCommand op s).D = s.D := rfl
@[simp] theorem beginCommand_RK (op : Opcode) (s : State) : (State.beginCommand op s).RK = s.RK := rfl
@[simp] theorem beginCommand_KV (op : Opcode) (s : State) : (State.beginCommand op s).KV = s.KV := rfl
@[simp] theorem beginCommand_IN (op : Opcode) (s : State) : (State.beginCommand op s).IN = s.IN := rfl
@[simp] theorem beginCommand_L (op : Opcode) (s : State) : (State.beginCommand op s).L = s.L := rfl
@[simp] theorem beginCommand_R (op : Opcode) (s : State) : (State.beginCommand op s).R = s.R := rfl
@[simp] theorem beginCommand_OUT (op : Opcode) (s : State) : (State.beginCommand op s).OUT = 0 := rfl
@[simp] theorem beginCommand_OP (op : Opcode) (s : State) : (State.beginCommand op s).OP = op := rfl
@[simp] theorem beginCommand_STATUS (op : Opcode) (s : State) : (State.beginCommand op s).STATUS = statusNone := rfl
@[simp] theorem beginCommand_PH (op : Opcode) (s : State) : (State.beginCommand op s).PH = s.PH := rfl
@[simp] theorem beginCommand_inputs (op : Opcode) (s : State) : (State.beginCommand op s).inputs = s.inputs := rfl

/-! ### `fail` -/

@[simp] theorem fail_C (code : Status) (s : State) : (State.fail code s).C = s.C := rfl
@[simp] theorem fail_D (code : Status) (s : State) : (State.fail code s).D = s.D := rfl
@[simp] theorem fail_RK (code : Status) (s : State) : (State.fail code s).RK = s.RK := rfl
@[simp] theorem fail_KV (code : Status) (s : State) : (State.fail code s).KV = s.KV := rfl
@[simp] theorem fail_IN (code : Status) (s : State) : (State.fail code s).IN = s.IN := rfl
@[simp] theorem fail_L (code : Status) (s : State) : (State.fail code s).L = s.L := rfl
@[simp] theorem fail_R (code : Status) (s : State) : (State.fail code s).R = s.R := rfl
@[simp] theorem fail_OUT (code : Status) (s : State) : (State.fail code s).OUT = 0 := rfl
@[simp] theorem fail_OP (code : Status) (s : State) : (State.fail code s).OP = s.OP := rfl
@[simp] theorem fail_STATUS (code : Status) (s : State) : (State.fail code s).STATUS = code := rfl
@[simp] theorem fail_PH (code : Status) (s : State) : (State.fail code s).PH = .failed := rfl
@[simp] theorem fail_inputs (code : Status) (s : State) : (State.fail code s).inputs = s.inputs := rfl

/-! ### `advance` -/

@[simp] theorem advance_C (s : State) : (State.advance s).C = s.C := rfl
@[simp] theorem advance_D (s : State) : (State.advance s).D = s.D := rfl
@[simp] theorem advance_RK (s : State) : (State.advance s).RK = s.RK := rfl
@[simp] theorem advance_KV (s : State) : (State.advance s).KV = s.KV := rfl
@[simp] theorem advance_IN (s : State) : (State.advance s).IN = s.IN := rfl
@[simp] theorem advance_L (s : State) : (State.advance s).L = s.L := rfl
@[simp] theorem advance_R (s : State) : (State.advance s).R = s.R := rfl
@[simp] theorem advance_OUT (s : State) : (State.advance s).OUT = s.OUT := rfl
@[simp] theorem advance_OP (s : State) : (State.advance s).OP = s.OP := rfl
@[simp] theorem advance_STATUS (s : State) : (State.advance s).STATUS = s.STATUS := rfl
@[simp] theorem advance_PH (s : State) : (State.advance s).PH = s.PH := rfl
@[simp] theorem advance_inputs (s : State) : (State.advance s).inputs = s.inputs.tail := rfl

/-! ### `withSample` -/

@[simp] theorem withSample_C (p : PortSample) (s : State) : (State.withSample p s).C = s.C := rfl
@[simp] theorem withSample_D (p : PortSample) (s : State) : (State.withSample p s).D = s.D := rfl
@[simp] theorem withSample_RK (p : PortSample) (s : State) : (State.withSample p s).RK = s.RK := rfl
@[simp] theorem withSample_KV (p : PortSample) (s : State) : (State.withSample p s).KV = s.KV := rfl
@[simp] theorem withSample_IN (p : PortSample) (s : State) : (State.withSample p s).IN = s.IN := rfl
@[simp] theorem withSample_L (p : PortSample) (s : State) : (State.withSample p s).L = s.L := rfl
@[simp] theorem withSample_R (p : PortSample) (s : State) : (State.withSample p s).R = s.R := rfl
@[simp] theorem withSample_OUT (p : PortSample) (s : State) : (State.withSample p s).OUT = s.OUT := rfl
@[simp] theorem withSample_OP (p : PortSample) (s : State) : (State.withSample p s).OP = s.OP := rfl
@[simp] theorem withSample_STATUS (p : PortSample) (s : State) : (State.withSample p s).STATUS = s.STATUS := rfl
@[simp] theorem withSample_PH (p : PortSample) (s : State) : (State.withSample p s).PH = s.PH := rfl
@[simp] theorem withSample_inputs (p : PortSample) (s : State) : (State.withSample p s).inputs = p :: s.inputs.tail := rfl

/-! ### `resetEvent` -/

@[simp] theorem resetEvent_C (s : State) : (State.resetEvent s).C = 0 := rfl
@[simp] theorem resetEvent_D (s : State) : (State.resetEvent s).D = 0 := rfl
@[simp] theorem resetEvent_RK (s : State) : (State.resetEvent s).RK = Vector.replicate 16 0 := rfl
@[simp] theorem resetEvent_KV (s : State) : (State.resetEvent s).KV = false := rfl
@[simp] theorem resetEvent_IN (s : State) : (State.resetEvent s).IN = 0 := rfl
@[simp] theorem resetEvent_L (s : State) : (State.resetEvent s).L = 0 := rfl
@[simp] theorem resetEvent_R (s : State) : (State.resetEvent s).R = 0 := rfl
@[simp] theorem resetEvent_OUT (s : State) : (State.resetEvent s).OUT = 0 := rfl
@[simp] theorem resetEvent_OP (s : State) : (State.resetEvent s).OP = 0b000#3 := rfl
@[simp] theorem resetEvent_STATUS (s : State) : (State.resetEvent s).STATUS = 0 := rfl
@[simp] theorem resetEvent_PH (s : State) : (State.resetEvent s).PH = .idle := rfl
@[simp] theorem resetEvent_inputs (s : State) : (State.resetEvent s).inputs = s.inputs := rfl

end Sys2Proof.Machine
end

