-- ==== Sys2Proof/Laws/Sequencer.lean ====
section
/-! SUPPORT. What each phase enables, what a run of internal steps comes to, and when a command ends. -/

namespace Sys2Proof.Machine

/-! ### The internal step of each phase -/

theorem internalStep_ks {s : State} {i : Fin 16} (h : s.PH = .ks i.castSucc) :
    s.internalStep = s.ksRound i := by
  simp [State.internalStep, h]

theorem internalStep_ks_last {s : State} (h : s.PH = .ks (Fin.last 16)) :
    s.internalStep = s.ksDone := by
  simp [State.internalStep, h]

theorem internalStep_initial {s : State} (h : s.PH = .initial) : s.internalStep = s.drvIp := by
  simp [State.internalStep, h]

theorem internalStep_permuted {s : State} (h : s.PH = .permuted) :
    s.internalStep = s.drvRound 0 := by
  simp [State.internalStep, h]

theorem internalStep_round {s : State} {i : Fin 16} (h : s.PH = .round i) (hi : i.val + 1 < 16) :
    s.internalStep = s.drvRound ⟨i.val + 1, hi⟩ := by
  simp [State.internalStep, h, hi]

theorem internalStep_round_last {s : State} (h : s.PH = .round (Fin.last 15)) :
    s.internalStep = s.drvPreFinal := by
  simp [State.internalStep, h]

theorem internalStep_preFinal {s : State} (h : s.PH = .preFinal) : s.internalStep = s.drvFinal := by
  simp [State.internalStep, h]

theorem internalStep_ready {s : State} (h : s.PH.ready = true) : s.internalStep = s := by
  unfold State.internalStep
  split <;> simp_all [Phase.ready]

/-- The internal step leaves the input history alone. -/
theorem internalStep_inputs (s : State) : s.internalStep.inputs = s.inputs := by
  unfold State.internalStep State.ksDone
  split <;> (try split) <;> (try split) <;> rfl

/-! ### Without a reset -/

theorem noResetFor_zero (s : State) : s.noResetFor 0 = true := by
  simp [State.noResetFor]

/-- No reset in the next `n + 1` steps: none now, none in the `n` steps after. -/
theorem noResetFor_succ {s : State} {n : Nat} (h : s.noResetFor (n + 1) = true) :
    s.port.rst = false ∧ s.advance.noResetFor n = true := by
  unfold State.noResetFor State.port State.advance at *
  cases hs : s.inputs with
  | nil => simp [PortSample.quiet]
  | cons p rest => simpa [hs] using h

/-- No reset in the next `n` steps: none in any fewer. -/
theorem noResetFor_mono {s : State} {m n : Nat} (h : s.noResetFor n = true) (hm : m ≤ n) :
    s.noResetFor m = true := by
  unfold State.noResetFor at *
  rw [List.all_eq_true] at *
  intro p hp
  exact h p ((List.take_subset_take_left _ hm) hp)

/-- No reset in the next `n` steps: none in the steps from the `m`-th on. -/
theorem noResetFor_drop {s t : State} {m n : Nat} (h : s.noResetFor n = true)
    (ht : t.inputs = s.inputs.drop m) : t.noResetFor (n - m) = true := by
  unfold State.noResetFor at *
  rw [ht]
  rw [List.all_eq_true] at *
  intro p hp
  refine h p ?_
  rw [← List.drop_take] at hp
  exact List.mem_of_mem_drop hp

theorem busyTick_of_no_reset {s : State} (h : s.port.rst = false) :
    s.busyTick = s.advance.internalStep := by
  simp [State.busyTick, h]

theorem busyTick_of_reset {s : State} (h : s.port.rst = true) :
    s.busyTick = s.advance.resetEvent := by
  simp [State.busyTick, h]

/-- A busy core's step, whatever is presented. -/
theorem tick_of_busy {s : State} (h : s.PH.ready = false) : s.tick = s.busyTick := by
  simp [State.tick, State.busyTick, h]

theorem tick_of_accept {s : State} (hr : s.PH.ready = true) (h : s.port.rst = false)
    (hv : s.port.cmdValid = true) : s.tick = s.advance.accept s.port.command := by
  simp [State.tick, h, hr, hv]

/-! ### Runs of internal steps -/

/-- The round-key store after `n` rounds of the schedule of `key`, from the store `rk`. -/
def scheduledStore (key : Block) (rk : RoundKeys) : Nat → RoundKeys
  | 0 => rk
  | n + 1 => (scheduledStore key rk n).set (Fin.ofNat 16 n) (scheduledKey key (n + 1))

theorem getElem_scheduledStore (key : Block) (rk : RoundKeys) {n : Nat} (hn : n ≤ 16)
    (j : Nat) (hj : j < 16) :
    (scheduledStore key rk n)[j] = if j < n then scheduledKey key (j + 1) else rk[j] := by
  induction n with
  | zero => simp [scheduledStore]
  | succ n ih =>
    have hn' : (Fin.ofNat 16 n).val = n := by simp; omega
    simp only [scheduledStore]
    rw [Vector.getElem_set, ih (by omega)]
    simp only [hn']
    by_cases h : n = j
    · subst h; simp
    · by_cases h' : j < n
      · simp [h, h', Nat.lt_succ_of_lt h']
      · simp [h, h', show ¬ j < n + 1 by omega]

/-- After sixteen rounds the store holds the schedule, whatever it held before. -/
theorem scheduledStore_all (key : Block) (rk : RoundKeys) :
    scheduledStore key rk 16 = generateRoundKeys key := by
  ext j hj : 1
  rw [getElem_scheduledStore key rk (Nat.le_refl 16) j hj]
  simp [generateRoundKeys, hj]

/-- `n` rounds of the key schedule (R146, repeated). -/
theorem busyTick_iterate_schedule {s : State} {key : Block} (hp : s.PH = .ks 0)
    (hc : s.C = keyC0 key) (hd : s.D = keyD0 key) {n : Nat} (hn : n ≤ 16)
    (hr : s.noResetFor n = true) :
    State.busyTick^[n] s =
      { s with
        C := (scheduleState key n).1, D := (scheduleState key n).2,
        RK := scheduledStore key s.RK n, PH := .ks (Fin.ofNat 17 n), inputs := s.inputs.drop n } := by
  induction n with
  | zero =>
    cases s
    simp_all [scheduleState, scheduledStore]
  | succ n ih =>
    have ih := ih (by omega) (noResetFor_mono hr (Nat.le_succ n))
    rw [Function.iterate_succ_apply', ih]
    have h1 : (Fin.ofNat 17 n).val = n := by simp; omega
    have hi : (Fin.ofNat 17 n) = Fin.castSucc (⟨n, by omega⟩ : Fin 16) := by
      apply Fin.ext; simpa using h1
    rw [busyTick_of_no_reset, internalStep_ks (i := ⟨n, by omega⟩) (congrArg Phase.ks hi)]
    · have h2 : (⟨n, by omega⟩ : Fin 16) = Fin.ofNat 16 n := by
        apply Fin.ext; simp; omega
      have h3 : (Fin.ofNat 16 n).succ = Fin.ofNat 17 (n + 1) := by
        apply Fin.ext; simp; omega
      simp only [State.ksRound, State.enter, State.writeKey, State.advance, h2, h3,
        List.tail_drop, scheduledStore, scheduledKey, scheduleState]
      have h4 : (Fin.ofNat 16 n).val = n := by simp; omega
      simp only [h4]
    · have := noResetFor_drop (t := { s with inputs := s.inputs.drop n }) hr rfl
      rw [show n + 1 - n = 0 + 1 by omega] at this
      exact (noResetFor_succ this).1

/-- The phase after `n` Feistel rounds. -/
def roundPhase : Nat → Phase
  | 0 => .permuted
  | n + 1 => .round (Fin.ofNat 16 n)

/-- `n` Feistel rounds (R180, repeated). -/
theorem busyTick_iterate_rounds {s : State} (hp : s.PH = .permuted)
    (h0 : (s.L, s.R) = initialHalves s.IN) {n : Nat} (hn : n ≤ 16) (hr : s.noResetFor n = true) :
    State.busyTick^[n] s =
      { s with
        L := (roundState s.RK (Opcode.mode s.OP) s.IN n).1,
        R := (roundState s.RK (Opcode.mode s.OP) s.IN n).2,
        PH := roundPhase n, inputs := s.inputs.drop n } := by
  induction n with
  | zero =>
    cases s
    simp_all [roundState, roundPhase, ← h0]
  | succ n ih =>
    have ih := ih (by omega) (noResetFor_mono hr (Nat.le_succ n))
    rw [Function.iterate_succ_apply', ih, busyTick_of_no_reset]
    · cases n with
      | zero =>
        rw [internalStep_permuted (by simp [State.advance, roundPhase])]
        simp [State.drvRound, State.enter, State.advance, roundState, roundPhase, feistelRound]
      | succ n =>
        have h1 : (Fin.ofNat 16 n).val = n := by simp; omega
        rw [internalStep_round (i := Fin.ofNat 16 n) (by simp [State.advance, roundPhase])
          (by rw [h1]; omega)]
        have h2 : ∀ h, (⟨(Fin.ofNat 16 n).val + 1, h⟩ : Fin 16) = Fin.ofNat 16 (n + 1) := by
          intro h; apply Fin.ext; simp; omega
        rw [h2]
        simp only [State.drvRound, State.enter, State.advance, roundState, roundPhase, feistelRound,
          List.tail_drop]
    · have := noResetFor_drop (t := { s with inputs := s.inputs.drop n }) hr rfl
      rw [show n + 1 - n = 0 + 1 by omega] at this
      exact (noResetFor_succ this).1

/-! ### From acceptance to the next ready phase -/

theorem finish_of_ready {s : State} (h : s.PH.ready = true) (n : Nat) : State.finish n s = s := by
  cases n <;> simp [State.finish, h]

theorem finish_of_busy {s : State} (h : s.PH.ready = false) (n : Nat) :
    State.finish (n + 1) s = State.finish n s.busyTick := by
  simp [State.finish, h]

/-- While the core is busy, finishing takes its steps. -/
theorem finish_iterate {s : State} {k : Nat} (h : ∀ j < k, (State.busyTick^[j] s).PH.ready = false)
    (n : Nat) : State.finish (k + n) s = State.finish n (State.busyTick^[k] s) := by
  induction k generalizing s with
  | zero => simp
  | succ k ih =>
    rw [show k + 1 + n = (k + n) + 1 by omega, finish_of_busy (by simpa using h 0 (by omega)),
      ih (fun j hj => by simpa using h (j + 1) (by omega))]
    rfl

/-- Finishing ends in the first ready phase. -/
theorem finish_eq_iterate {s : State} {k : Nat}
    (h : ∀ j < k, (State.busyTick^[j] s).PH.ready = false)
    (hk : (State.busyTick^[k] s).PH.ready = true) {n : Nat} (hn : k ≤ n) :
    State.finish n s = State.busyTick^[k] s := by
  obtain ⟨m, rfl⟩ := Nat.exists_eq_add_of_le hn
  rw [finish_iterate h, finish_of_ready hk]

end Sys2Proof.Machine
end

