-- ==== Sys2Proof/Laws/Step.lean ====
section
/-! SUPPORT. What a step and a command can do: each in the terms of acceptance, internal steps and the
reset event. -/

namespace Sys2Proof.Machine

/-- The sample that presents a command presents that command. -/
theorem command_present (i : Instr) : (PortSample.present i).command = i := decodePorts_self i

/-- `KS-DONE` when a block operation follows (R147). -/
theorem ksDone_of_blk {s : State} (h : s.OP.getLsbD 2 = true) :
    s.ksDone = State.enter .initial (State.setKeyValid true s) := by
  rw [State.ksDone, if_pos h]

/-- `KS-DONE` when the command ends (R147). -/
theorem ksDone_of_not_blk {s : State} (h : s.OP.getLsbD 2 = false) :
    s.ksDone = State.enter .final (State.setStatus statusOk (State.setKeyValid true s)) := by
  rw [State.ksDone, if_neg (by simpa using h)]

/-- `ACCEPT` of a block-only command with a valid key (R196). -/
theorem acceptBlock_of_key {s : State} (h : s.KV = true) (op : Opcode) (block : Block) :
    State.acceptBlock op block s =
      State.enter .initial { State.beginCommand op s with IN := block } := by
  rw [State.acceptBlock, if_pos h]

/-- `ACCEPT` of a block-only command without one (R196). -/
theorem acceptBlock_of_no_key {s : State} (h : s.KV = false) (op : Opcode) (block : Block) :
    State.acceptBlock op block s = State.fail statusNoKey (State.beginCommand op s) := by
  rw [State.acceptBlock, if_neg (by simpa using h)]

/-- A command in a ready phase: acceptance, then the steps up to the next ready phase. -/
theorem exec_of_ready (i : Instr) {s : State} (h : s.PH.ready = true) :
    exec i s = .next (State.finish maxInternalSteps (s.accept i)) := by
  cases i <;>
    simp [exec, execKeygen, execEncblk, execDecblk, execEncrypt, execDecrypt, execReserved000,
      execReserved001, execReserved011, runCommand, h, State.accept]

/-- A command in any other phase waits. -/
theorem exec_of_busy (i : Instr) {s : State} (h : s.PH.ready = false) :
    exec i s = .next s.internalStep := by
  cases i <;>
    simp [exec, execKeygen, execEncblk, execDecblk, execEncrypt, execDecrypt, execReserved000,
      execReserved001, execReserved011, runCommand, h]

/-- The step of a busy core, whatever is presented. -/
theorem step_of_busy {s : State} (h : s.PH.ready = false) (hr : s.port.rst = false) :
    step s = .next s.advance.internalStep := by
  have : exec s.port.command s.advance = .next s.advance.internalStep :=
    exec_of_busy _ (by simpa using h)
  simp [step, hr, this]

/-- The step of a ready core with a command presented. -/
theorem step_of_command {s : State} (hr : s.port.rst = false) (hv : s.port.cmdValid = true) :
    step s = exec s.port.command s.advance := by
  simp [step, hr, hv]

/-- Everything a step can do: the reset event, a presented command, or an internal step. -/
theorem step_cases {s t : State} (h : step s = .next t) :
    (s.port.rst = true ∧ t = s.advance.resetEvent) ∨
    (s.port.rst = false ∧ s.PH.ready = true ∧ s.port.cmdValid = true ∧
      t = State.finish maxInternalSteps (s.advance.accept s.port.command)) ∨
    (s.port.rst = false ∧ s.PH.ready = true ∧ s.port.cmdValid = false ∧ t = s.advance) ∨
    (s.port.rst = false ∧ s.PH.ready = false ∧ t = s.advance.internalStep) := by
  cases hr : s.port.rst with
  | true => exact .inl ⟨rfl, by simpa [step, hr] using h.symm⟩
  | false =>
    cases hp : s.PH.ready with
    | false => exact .inr (.inr (.inr ⟨rfl, rfl, by simpa [step_of_busy hp hr] using h.symm⟩))
    | true =>
      cases hv : s.port.cmdValid with
      | true =>
        rw [step_of_command hr hv, exec_of_ready _ (by simpa using hp)] at h
        exact .inr (.inl ⟨rfl, rfl, rfl, by simpa using h.symm⟩)
      | false =>
        have hi : s.advance.internalStep = s.advance := internalStep_ready (by simpa using hp)
        exact .inr (.inr (.inl ⟨rfl, rfl, rfl, by simpa [step, hr, hv, hi] using h.symm⟩))

/-- Everything a step of the step machine can do. -/
theorem tick_cases (s : State) :
    (s.port.rst = true ∧ s.tick = s.advance.resetEvent) ∨
    (s.port.rst = false ∧ s.PH.ready = true ∧ s.port.cmdValid = true ∧
      s.tick = s.advance.accept s.port.command) ∨
    (s.port.rst = false ∧ s.PH.ready = true ∧ s.port.cmdValid = false ∧ s.tick = s.advance) ∨
    (s.port.rst = false ∧ s.PH.ready = false ∧ s.tick = s.advance.internalStep) := by
  cases hr : s.port.rst <;> cases hp : s.PH.ready <;> cases hv : s.port.cmdValid <;>
    simp [State.tick, hr, hp, hv]

end Sys2Proof.Machine
end

