-- ==== Sys2Proof/Laws/Commands.lean ====
section
/-! SUPPORT. The two long runs of internal steps, each as one lemma: a whole key schedule and a whole
block operation. -/

namespace Sys2Proof.Machine

/-- The sample of step `n` of a run without resets, read after `n` samples have passed. -/
theorem port_rst_of_noResetFor {s t : State} {n : Nat} (h : s.noResetFor (n + 1) = true)
    (ht : t.inputs = s.inputs.drop n) : t.port.rst = false := by
  have := noResetFor_drop (t := t) h ht
  rw [show n + 1 - n = 0 + 1 by omega] at this
  exact (noResetFor_succ this).1

/-- `n` steps of a key schedule leave the core busy. -/
theorem busy_during_schedule {s : State} {key : Block} (hp : s.PH = .ks 0) (hc : s.C = keyC0 key)
    (hd : s.D = keyD0 key) {n : Nat} (hn : n ≤ 16) (hr : s.noResetFor n = true) :
    (State.busyTick^[n] s).PH = .ks (Fin.ofNat 17 n) := by
  rw [busyTick_iterate_schedule hp hc hd hn hr]

/-- The state in `KS(16)` after the sixteen rounds of the schedule of `key`, seventeen samples on. -/
def State.scheduled (key : Block) (s : State) : State :=
  { s with
    C := (scheduleState key 16).1, D := (scheduleState key 16).2, RK := generateRoundKeys key,
    PH := .ks (Fin.last 16), inputs := s.inputs.drop 17 }

/-- Seventeen steps: the sixteen rounds and `KS-DONE` (R146, R147). -/
theorem busyTick_iterate_whole_schedule {s : State} {key : Block} (hp : s.PH = .ks 0)
    (hc : s.C = keyC0 key) (hd : s.D = keyD0 key) (hr : s.noResetFor 17 = true) :
    State.busyTick^[17] s = State.ksDone (State.scheduled key s) := by
  rw [Function.iterate_succ_apply',
    busyTick_iterate_schedule hp hc hd (Nat.le_refl 16) (noResetFor_mono hr (by omega)),
    busyTick_of_no_reset (port_rst_of_noResetFor hr rfl), internalStep_ks_last rfl]
  simp [State.advance, State.scheduled, scheduledStore_all]

/-- A key schedule on the way to the next ready phase. -/
theorem finish_schedule {s : State} {key : Block} (hp : s.PH = .ks 0) (hc : s.C = keyC0 key)
    (hd : s.D = keyD0 key) (hr : s.noResetFor 17 = true) (n : Nat) :
    State.finish (17 + n) s = State.finish n (State.ksDone (State.scheduled key s)) := by
  rw [finish_iterate, busyTick_iterate_whole_schedule hp hc hd hr]
  intro j hj
  rw [busy_during_schedule hp hc hd (by omega) (noResetFor_mono hr (by omega))]
  rfl

/-- The driver's phase after `n + 1` steps from `Initial`, for `n` up to 16. -/
theorem busyTick_iterate_driver {s : State} (hp : s.PH = .initial) {n : Nat} (hn : n ≤ 16)
    (hr : s.noResetFor (n + 1) = true) :
    State.busyTick^[n + 1] s =
      { s with
        L := (roundState s.RK (Opcode.mode s.OP) s.IN n).1,
        R := (roundState s.RK (Opcode.mode s.OP) s.IN n).2,
        PH := roundPhase n, inputs := s.inputs.drop (n + 1) } := by
  obtain ⟨h0, hr'⟩ := noResetFor_succ hr
  have e : s.busyTick = s.advance.drvIp := by
    rw [busyTick_of_no_reset h0, internalStep_initial (by simpa using hp)]
  have hr'' : s.advance.drvIp.noResetFor n = true := hr'
  rw [Function.iterate_succ_apply, e, busyTick_iterate_rounds rfl rfl hn hr'']
  simp [State.drvIp, State.enter, State.advance]

/-- A Feistel phase is not ready. -/
theorem roundPhase_busy (n : Nat) : (roundPhase n).ready = false := by
  cases n <;> rfl

/-- Nineteen steps: the whole block operation (R179 to R182). -/
theorem busyTick_iterate_whole_driver {s : State} (hp : s.PH = .initial)
    (hr : s.noResetFor 19 = true) :
    State.busyTick^[18] s =
      { s with
        L := (roundState s.RK (Opcode.mode s.OP) s.IN 16).1,
        R := (roundState s.RK (Opcode.mode s.OP) s.IN 16).2,
        PH := .preFinal, inputs := s.inputs.drop 18 } ∧
    State.busyTick^[19] s =
      { s with
        L := (roundState s.RK (Opcode.mode s.OP) s.IN 16).1,
        R := (roundState s.RK (Opcode.mode s.OP) s.IN 16).2,
        OUT := processBlock s.IN s.RK (Opcode.mode s.OP), STATUS := statusOk,
        PH := .final, inputs := s.inputs.drop 19 } := by
  have h18 : State.busyTick^[18] s =
      { s with
        L := (roundState s.RK (Opcode.mode s.OP) s.IN 16).1,
        R := (roundState s.RK (Opcode.mode s.OP) s.IN 16).2,
        PH := .preFinal, inputs := s.inputs.drop 18 } := by
    rw [Function.iterate_succ_apply',
      busyTick_iterate_driver hp (Nat.le_refl 16) (noResetFor_mono hr (by omega)),
      busyTick_of_no_reset (port_rst_of_noResetFor (noResetFor_mono hr (by omega)) rfl),
      internalStep_round_last rfl]
    simp [State.drvPreFinal, State.enter, State.advance]
  refine ⟨h18, ?_⟩
  rw [Function.iterate_succ_apply', h18,
    busyTick_of_no_reset (port_rst_of_noResetFor hr rfl), internalStep_preFinal rfl]
  simp [State.drvFinal, State.enter, State.setStatus, State.advance, processBlock, preFinalBlock]

/-- A block operation up to the next ready phase. -/
theorem finish_driver {s : State} (hp : s.PH = .initial) (hr : s.noResetFor 19 = true) {n : Nat}
    (hn : 19 ≤ n) :
    State.finish n s =
      { s with
        L := (roundState s.RK (Opcode.mode s.OP) s.IN 16).1,
        R := (roundState s.RK (Opcode.mode s.OP) s.IN 16).2,
        OUT := processBlock s.IN s.RK (Opcode.mode s.OP), STATUS := statusOk,
        PH := .final, inputs := s.inputs.drop 19 } := by
  rw [finish_eq_iterate (k := 19), (busyTick_iterate_whole_driver hp hr).2]
  · intro j hj
    match j with
    | 0 => simp [hp, Phase.ready]
    | j + 1 =>
      by_cases h : j ≤ 16
      · rw [busyTick_iterate_driver hp h (noResetFor_mono hr (by omega))]
        exact roundPhase_busy j
      · have : j = 17 := by omega
        subst this
        rw [(busyTick_iterate_whole_driver hp hr).1]
        rfl
  · rw [(busyTick_iterate_whole_driver hp hr).2]
    rfl
  · exact hn

end Sys2Proof.Machine
end

