-- ==== Sys2Proof/Laws/Tables.lean ====
section
/-! SUPPORT. The invariants of the tables, each by inspection of the literals (41_table_repository.md). -/

namespace Sys2Proof.Machine

/-! ### Table length equals output width -/

theorem tableIP_length : tableIP.length = 64 := rfl
theorem tableFP_length : tableFP.length = 64 := rfl
theorem tableE_length : tableE.length = 48 := rfl
theorem tableP_length : tableP.length = 32 := rfl
theorem tablePC1_length : tablePC1.length = 56 := rfl
theorem tablePC2_length : tablePC2.length = 48 := rfl

/-! ### Every index is less than the input width -/

theorem tableIP_lt : ∀ idx ∈ tableIP, idx < 64 := by decide
theorem tableFP_lt : ∀ idx ∈ tableFP, idx < 64 := by decide
theorem tableE_lt : ∀ idx ∈ tableE, idx < 32 := by decide
theorem tableP_lt : ∀ idx ∈ tableP, idx < 32 := by decide
theorem tablePC1_lt : ∀ idx ∈ tablePC1, idx < 64 := by decide
theorem tablePC2_lt : ∀ idx ∈ tablePC2, idx < 56 := by decide

/-! ### `IP` and `FP` are inverse to each other -/

theorem tableIP_tableFP : ∀ j < 64, tableIP.getD (tableFP.getD j 0) 0 = j := by decide
theorem tableFP_tableIP : ∀ j < 64, tableFP.getD (tableIP.getD j 0) 0 = j := by decide

/-! ### The other properties the source states -/

/-- `PC1` names no parity position: the last bit of each key byte. -/
theorem tablePC1_no_parity : ∀ idx ∈ tablePC1, idx % 8 ≠ 7 := by decide

/-- The shifts sum to the width of a key half. -/
theorem shiftSchedule_sum : shiftSchedule.sum = 28 := rfl

/-- Every S-box cell is a 4-bit value. -/
theorem sBoxCell_lt :
    ∀ i < 8, ∀ row < 4, ∀ col < 16, sBoxCell i row col < 16 := by decide +kernel

end Sys2Proof.Machine
end

