-- ==== Sys2Proof/Laws/FunctionLevel.lean ====
section
/-! SUPPORT. The raw operations of the function level, each by what it can answer, and the bits of a
block as a raw sequence. -/

namespace Sys2Proof.Machine

/-! ### The bits of a block -/

@[simp] theorem rawOfBits_length {n : Nat} (b : BitVec n) : (rawOfBits b).length = n := by
  simp [rawOfBits]

theorem rawOfBits_getElem {n : Nat} (b : BitVec n) (i : Nat) (h : i < (rawOfBits b).length) :
    (rawOfBits b)[i] = (b.getMsbD i).toNat := by
  simp [rawOfBits]

theorem rawOfBits_getD {n : Nat} (b : BitVec n) {i : Nat} (h : i < n) :
    (rawOfBits b).getD i 0 = (b.getMsbD i).toNat := by
  rw [List.getD_eq_getElem _ _ (by simpa using h), rawOfBits_getElem]

/-- Every element of it is a bit. -/
theorem rawOfBits_bit {n : Nat} (b : BitVec n) : ∀ x ∈ rawOfBits b, x = 0 ∨ x = 1 := by
  intro x hx
  obtain ⟨i, -, rfl⟩ := List.mem_map.1 hx
  cases b.getMsbD i <;> simp

/-! ### The check of an operand -/

/-- The check passes on exactly the sequences of 64 bits (42_key_schedule.md R141). -/
theorem check_eq_ok_iff (b : RawBlock) :
    RawBlock.check b = .ok () ↔ b.length = 64 ∧ ∀ x ∈ b, x = 0 ∨ x = 1 := by
  unfold RawBlock.check
  split
  · simp_all
  · split <;> simp_all

/-- The check reports the length first (R141). -/
theorem check_of_length {b : RawBlock} (h : b.length ≠ 64) :
    RawBlock.check b = .error .invalidLength := if_pos h

/-- It reports a bit value only of a sequence of the right length. -/
theorem check_of_value {b : RawBlock} (h : b.length = 64) (hx : ∃ x ∈ b, x ≠ 0 ∧ x ≠ 1) :
    RawBlock.check b = .error .invalidBitValue := by
  obtain ⟨x, hm, h0, h1⟩ := hx
  have : b.all (fun x => x == 0 || x == 1) = false := by
    rw [List.all_eq_false]
    exact ⟨x, hm, by simp [h0, h1]⟩
  simp [RawBlock.check, h, this]

@[simp] theorem check_rawOfBits (b : Block) : RawBlock.check (rawOfBits b) = .ok () :=
  (check_eq_ok_iff _).2 ⟨rawOfBits_length b, rawOfBits_bit b⟩

/-! ### The utilities -/

/-- `xor` of two sequences of one length (40_bitvector_utilities.md R111). -/
theorem rawXor_of_length {a b : RawBlock} (h : a.length = b.length) :
    rawXor a b = .ok (List.zipWith (fun x y => (x + y) % 2) a b) := by
  simp [rawXor, h]

/-- `rotate_left` keeps the length of a block that has one (R112). -/
theorem rawRotateLeft_length {bits : RawBlock} (h : bits ≠ []) (n : Nat) :
    (rawRotateLeft bits n).length = bits.length := by
  simp [rawRotateLeft, h]

/-! ### On the bits of a block, each raw operation gives the fixed-width operation's bits -/

/-- A raw sequence is the bits of a block when its elements are. -/
theorem eq_rawOfBits {n : Nat} {l : RawBlock} {b : BitVec n} (hl : l.length = n)
    (h : ∀ i < n, l.getD i 0 = (b.getMsbD i).toNat) : l = rawOfBits b := by
  apply List.ext_getElem
  · simp [hl]
  · intro i h1 h2
    have := h i (by omega)
    rw [List.getD_eq_getElem _ _ h1] at this
    rw [this, rawOfBits_getElem]

/-- With every entry in range `permute` reads the bits that the table names. -/
theorem rawPermute_bits {n : Nat} (x : BitVec n) {table : List Nat} (hlt : ∀ idx ∈ table, idx < n) :
    rawPermute (rawOfBits x) table = .ok (table.map fun idx => (x.getMsbD idx).toNat) := by
  induction table with
  | nil => rfl
  | cons idx rest ih =>
    have hidx : idx < n := hlt idx (by simp)
    have hget : (rawOfBits x)[idx]? = some (x.getMsbD idx).toNat := by
      rw [List.getElem?_eq_getElem (by simpa using hidx), rawOfBits_getElem]
    rw [rawPermute, hget, ih fun j hj => hlt j (by simp [hj])]
    rfl

/-- `permute` (40_bitvector_utilities.md R110). -/
theorem rawPermute_rawOfBits {n m : Nat} (x : BitVec n) {table : List Nat} (hm : table.length = m)
    (hlt : ∀ idx ∈ table, idx < n) :
    rawPermute (rawOfBits x) table = .ok (rawOfBits (permute m table x)) := by
  rw [rawPermute_bits x hlt]
  congr 1
  apply eq_rawOfBits (by simpa using hm)
  intro i hi
  rw [getMsbD_permute hm _ hi, List.getD_eq_getElem _ _ (by simpa [hm] using hi), List.getElem_map,
    List.getD_eq_getElem _ _ (by omega)]

/-- `xor` (R111). -/
theorem rawXor_rawOfBits {n : Nat} (a b : BitVec n) :
    rawXor (rawOfBits a) (rawOfBits b) = .ok (rawOfBits (a ^^^ b)) := by
  rw [rawXor_of_length (by simp)]
  congr 1
  apply eq_rawOfBits (by simp)
  intro i hi
  rw [List.getD_eq_getElem _ _ (by simp [hi]), List.getElem_zipWith, rawOfBits_getElem,
    rawOfBits_getElem, BitVec.getMsbD_xor]
  cases a.getMsbD i <;> cases b.getMsbD i <;> rfl

/-- `rotate_left` (R112). -/
theorem rawRotateLeft_rawOfBits {w : Nat} (hw : 0 < w) (b : BitVec w) (n : Nat) :
    rawRotateLeft (rawOfBits b) n = rawOfBits (rotateLeft b n) := by
  have hne : rawOfBits b ≠ [] := fun h => by
    have := congrArg List.length h
    simp at this
    omega
  have hlen : (rawRotateLeft (rawOfBits b) n).length = w := by
    rw [rawRotateLeft_length hne, rawOfBits_length]
  apply eq_rawOfBits hlen
  intro i hi
  have he : (rawOfBits b).isEmpty = false := by simpa using hne
  rw [getMsbD_rotateLeft' _ _ _ hi, List.getD_eq_getElem _ _ (by omega)]
  simp only [rawRotateLeft, he, Bool.false_eq_true, if_false, List.getElem_map, List.getElem_range,
    rawOfBits_length]
  rw [rawOfBits_getD _ (Nat.mod_lt _ hw), Nat.add_mod_mod]

/-- A sub-block (00_scope.md R10). -/
theorem rawSlice_rawOfBits {n : Nat} (b : BitVec n) {i len : Nat} (h : i + len ≤ n) :
    rawSlice (rawOfBits b) i len = rawOfBits (slice b i len) := by
  apply eq_rawOfBits (by simp [rawSlice]; omega)
  intro j hj
  rw [getMsbD_slice _ h hj, List.getD_eq_getElem _ _ (by simp [rawSlice]; omega)]
  simp [rawSlice, rawOfBits_getElem]

/-- A concatenation. -/
theorem rawOfBits_append {m n : Nat} (a : BitVec m) (b : BitVec n) :
    rawOfBits a ++ rawOfBits b = rawOfBits (a ++ b) := by
  apply eq_rawOfBits (by simp)
  intro i hi
  rw [BitVec.getMsbD_append, List.getD_eq_getElem _ _ (by simp [hi]), List.getElem_append]
  by_cases h : i < m
  · simp [h, rawOfBits_getElem, show ¬ m ≤ i by omega]
  · simp [h, rawOfBits_getElem, show m ≤ i by omega]

/-- The four bits of an S-box value. -/
theorem rawNibble_eq {v : Nat} (hv : v < 16) : rawNibble v = rawOfBits (BitVec.ofNat 4 v) := by
  interval_cases v <;> rfl

/-- The output nibble of a chunk (43_round_function.md R163). -/
theorem rawSBox_rawOfBits {i : Nat} (hi : i < 8) (c : Chunk) :
    rawSBox i (rawOfBits c) = rawOfBits (sBoxOutput i c) := by
  have bit : ∀ j < 6, (rawOfBits c).getD j 0 = (c.getMsbD j).toNat := fun j hj => rawOfBits_getD c hj
  have le : ∀ j, (c.getMsbD j).toNat ≤ 1 := fun j => Bool.toNat_le _
  have := le 0; have := le 1; have := le 2; have := le 3; have := le 4; have := le 5
  unfold rawSBox sBoxOutput sBoxRow sBoxCol
  rw [bit 0 (by decide), bit 1 (by decide), bit 2 (by decide), bit 3 (by decide), bit 4 (by decide),
    bit 5 (by decide)]
  exact rawNibble_eq (sBoxCell_lt i hi _ (by omega) _ (by omega))

/-- A checked operand is the bits of its block (00_scope.md R9). -/
theorem rawOfBits_toBlock {l : RawBlock} (hl : l.length = 64) (h : ∀ x ∈ l, x = 0 ∨ x = 1) :
    rawOfBits (RawBlock.toBlock l) = l := by
  have testBit_val : ∀ (m : RawBlock) (i : Nat), (∀ x ∈ m, x = 0 ∨ x = 1) →
      (RawBlock.val m).testBit i = (m.reverse.getD i 0 == 1) := by
    intro m
    induction m using List.reverseRecOn with
    | nil => simp [RawBlock.val]
    | append_singleton m b ih =>
      intro i hm
      have hb : b = 0 ∨ b = 1 := hm b (by simp)
      have hv : RawBlock.val (m ++ [b]) = 2 * RawBlock.val m + b := by simp [RawBlock.val]
      rw [hv, List.reverse_append]
      cases i with
      | zero => rcases hb with rfl | rfl <;> simp [Nat.testBit_zero]
      | succ i =>
        rw [Nat.testBit_succ, show (2 * RawBlock.val m + b) / 2 = RawBlock.val m by omega,
          ih i fun x hx => hm x (by simp [hx])]
        simp
  symm
  apply eq_rawOfBits hl
  intro i hi
  have hr : 64 - 1 - i < l.reverse.length := by simp [hl]; omega
  have hi' : i < l.length := by omega
  have he : l.length - 1 - (64 - 1 - i) = i := by omega
  have h63 : 63 - i < 64 := by omega
  unfold RawBlock.toBlock
  rw [BitVec.getMsbD_eq_getLsbD, BitVec.getLsbD_ofNat, testBit_val l _ h,
    List.getD_eq_getElem _ _ hr, List.getElem_reverse, List.getD_eq_getElem _ _ hi']
  simp only [he]
  rcases h l[i] (List.getElem_mem _) with h0 | h1
  · simp [h0]
  · simp [h1, hi, h63]

end Sys2Proof.Machine
end

