-- ==== Sys2Proof/Laws/PerInstr.lean ====
section
/-! SUPPORT. One lemma per command: the fields of its encoded word are its opcode and its operands as
presented (30_encoding.md R90, R92). -/

namespace Sys2Proof.Laws.EncodedFields

/-- The three fields of the encoded word. -/
def Statement (i : Instr) : Prop :=
  (encode i).extractLsb' 128 3 = i.opcode ∧ (encode i).extractLsb' 64 64 = i.blockOperand ∧
    (encode i).extractLsb' 0 64 = i.keyOperand

/-- The fields of any encoded word, from the fields of a concatenation. -/
theorem of_concatenation (i : Instr) : Statement i :=
  ⟨extract_op _ _ _, extract_block _ _ _, extract_key _ _ _⟩

theorem keygen (key : Block) : Statement (.keygen key) := of_concatenation _
theorem encblk (block : Block) : Statement (.encblk block) := of_concatenation _
theorem decblk (block : Block) : Statement (.decblk block) := of_concatenation _
theorem encrypt (block key : Block) : Statement (.encrypt block key) := of_concatenation _
theorem decrypt (block key : Block) : Statement (.decrypt block key) := of_concatenation _
theorem reserved000 : Statement .reserved000 := of_concatenation _
theorem reserved001 : Statement .reserved001 := of_concatenation _
theorem reserved011 : Statement .reserved011 := of_concatenation _

end Sys2Proof.Laws.EncodedFields
end

