-- ==== Sys2Proof/Laws/Timing.lean ====
section
/-! SUPPORT. A command step by step: its phase after each step, what it leaves untouched until it ends,
and where `finish` stops. -/

namespace Sys2Proof.Machine

/-- Nothing of a command in progress shows: `STATUS` and `OUT` are zero (10_state.md R27, R29). -/
def State.Quiet (s : State) : Prop := s.STATUS = 0 ∧ s.OUT = 0

/-- The tabulated phases are as many as the tabulated steps. -/
theorem commandPhases_length (i : Instr) (kv : Bool) :
    (commandPhases i kv).length = commandSteps i kv := by
  cases i <;> cases kv <;> rfl

/-- No command takes more than 37 steps. -/
theorem commandSteps_le (i : Instr) (kv : Bool) : commandSteps i kv ≤ 37 := by
  cases i <;> cases kv <;> simp [commandSteps]

/-- Every command takes at least its acceptance. -/
theorem commandSteps_pos (i : Instr) (kv : Bool) : 0 < commandSteps i kv := by
  cases i <;> cases kv <;> simp [commandSteps]

/-- The last tabulated phase of a command, and no other, is ready. -/
theorem commandPhases_ready (i : Instr) (kv : Bool) (k : Nat) (hk : k < commandSteps i kv) :
    ((commandPhases i kv).getD k .idle).ready = decide (k + 1 = commandSteps i kv) := by
  have := commandSteps_le i kv
  have h37 : k < 37 := by omega
  cases i <;> cases kv <;> simp only [commandSteps] at hk ⊢ <;> interval_cases k <;>
    first | rfl | (simp at hk)

/-- Acceptance leaves the input history alone. -/
theorem accept_inputs (i : Instr) (s : State) : (s.accept i).inputs = s.inputs := by
  cases i <;> try rfl
  all_goals (simp only [State.accept, State.acceptBlock]; split <;> rfl)

/-- The phases of a key schedule. -/
theorem schedule_phase {a : State} {key : Block} (hp : a.PH = .ks 0) (hc : a.C = keyC0 key)
    (hd : a.D = keyD0 key) (hq : a.Quiet) {k : Nat} (hk : k ≤ 16) (hr : a.noResetFor k = true) :
    (State.busyTick^[k] a).PH = .ks (Fin.ofNat 17 k) ∧ (State.busyTick^[k] a).Quiet := by
  rw [busyTick_iterate_schedule hp hc hd hk hr]
  exact ⟨rfl, hq⟩

/-- The phases of a block operation. -/
theorem driver_phase {a : State} (hp : a.PH = .initial) (hq : a.Quiet) {k : Nat} (hk : k ≤ 19)
    (hr : a.noResetFor k = true) :
    (State.busyTick^[k] a).PH = driverPhases.getD k .idle ∧
      (k < 19 → (State.busyTick^[k] a).Quiet) := by
  match k with
  | 0 => exact ⟨hp, fun _ => hq⟩
  | k + 1 =>
    by_cases h : k ≤ 16
    · rw [busyTick_iterate_driver hp h hr]
      refine ⟨?_, fun _ => hq⟩
      simp only
      interval_cases k <;> rfl
    · have : k = 17 ∨ k = 18 := by omega
      rcases this with rfl | rfl
      · have h18 : State.busyTick^[18] a = State.drvPreFinal (State.busyTick^[17] a).advance := by
          rw [Function.iterate_succ_apply', busyTick_of_no_reset, internalStep_round_last]
          · rw [busyTick_iterate_driver hp (le_refl 16) (noResetFor_mono hr (by omega))]; rfl
          · rw [busyTick_iterate_driver hp (le_refl 16) (noResetFor_mono hr (by omega))]
            exact port_rst_of_noResetFor hr rfl
        rw [h18, busyTick_iterate_driver hp (le_refl 16) (noResetFor_mono hr (by omega))]
        exact ⟨rfl, fun _ => hq⟩
      · rw [(busyTick_iterate_whole_driver hp hr).2]
        exact ⟨rfl, fun h => absurd h (by omega)⟩

/-- The phases of a key schedule with a block operation after it. -/
theorem cipher_phase {a : State} {key : Block} (hp : a.PH = .ks 0) (hc : a.C = keyC0 key)
    (hd : a.D = keyD0 key) (hq : a.Quiet) (ho : a.OP.getLsbD 2 = true) {k : Nat} (hk : k ≤ 36)
    (hr : a.noResetFor k = true) :
    (State.busyTick^[k] a).PH = (keySchedulePhases ++ driverPhases).getD k .idle ∧
      (k < 36 → (State.busyTick^[k] a).Quiet) := by
  by_cases h : k ≤ 16
  · have := schedule_phase hp hc hd hq h hr
    refine ⟨this.1.trans ?_, fun _ => this.2⟩
    interval_cases k <;> rfl
  · obtain ⟨j, rfl⟩ := Nat.exists_eq_add_of_le (show 17 ≤ k by omega)
    rw [Nat.add_comm, Function.iterate_add_apply,
      busyTick_iterate_whole_schedule hp hc hd (noResetFor_mono hr (by omega)),
      ksDone_of_blk (s := State.scheduled key a) ho]
    have h17 := noResetFor_drop (m := 17)
      (t := State.enter .initial (State.setKeyValid true (State.scheduled key a))) hr rfl
    rw [show 17 + j - 17 = j by omega] at h17
    have := driver_phase (k := j)
      (a := State.enter .initial (State.setKeyValid true (State.scheduled key a))) rfl hq (by omega) h17
    refine ⟨this.1.trans ?_, fun h => this.2 (by omega)⟩
    have hj : j ≤ 19 := by omega
    interval_cases j <;> rfl

/-- The phases of a key schedule that ends the command. -/
theorem keygen_phase {a : State} {key : Block} (hp : a.PH = .ks 0) (hc : a.C = keyC0 key)
    (hd : a.D = keyD0 key) (hq : a.Quiet) (ho : a.OP.getLsbD 2 = false) {k : Nat} (hk : k ≤ 17)
    (hr : a.noResetFor k = true) :
    (State.busyTick^[k] a).PH = (keySchedulePhases ++ [Phase.final]).getD k .idle ∧
      (k < 17 → (State.busyTick^[k] a).Quiet) := by
  by_cases h : k ≤ 16
  · have := schedule_phase hp hc hd hq h hr
    refine ⟨this.1.trans ?_, fun _ => this.2⟩
    interval_cases k <;> rfl
  · have : k = 17 := by omega
    subst this
    rw [busyTick_iterate_whole_schedule hp hc hd hr, ksDone_of_not_blk (s := State.scheduled key a) ho]
    exact ⟨rfl, fun h => absurd h (by omega)⟩

/-- The phase of a command `k` steps after its acceptance; nothing shows before the last. -/
theorem command_phase (i : Instr) (s : State) {k : Nat} (hk : k < commandSteps i s.KV)
    (hr : (s.accept i).noResetFor k = true) :
    (State.busyTick^[k] (s.accept i)).PH = (commandPhases i s.KV).getD k .idle ∧
      (k + 1 < commandSteps i s.KV → (State.busyTick^[k] (s.accept i)).Quiet) := by
  have blk : ∀ op b, k < (if s.KV then 20 else 1) →
      (State.acceptBlock op b s).noResetFor k = true →
      (State.busyTick^[k] (State.acceptBlock op b s)).PH =
        (if s.KV then driverPhases else [.failed]).getD k .idle ∧
      (k + 1 < (if s.KV then 20 else 1) →
        (State.busyTick^[k] (State.acceptBlock op b s)).Quiet) := by
    intro op b hk hr
    cases hkv : s.KV with
    | true =>
      rw [acceptBlock_of_key hkv] at *
      rw [hkv] at hk
      have := driver_phase (a := State.enter .initial { State.beginCommand op s with IN := b }) rfl
        ⟨rfl, rfl⟩ (k := k) (by simp at hk; omega) hr
      exact ⟨this.1, fun h => this.2 (by simp at h; omega)⟩
    | false =>
      rw [acceptBlock_of_no_key hkv] at *
      rw [hkv] at hk
      have : k = 0 := by simp at hk; omega
      subst this
      exact ⟨rfl, fun h => absurd h (by simp)⟩
  have one : k < 1 → k = 0 := by omega
  cases i with
  | keygen key =>
    have hk' : k < 18 := hk
    have := keygen_phase (a := s.accept (.keygen key)) (key := key) rfl rfl rfl ⟨rfl, rfl⟩
      (by exact (by decide : BitVec.getLsbD (0b010#3) 2 = false)) (k := k) (by omega) hr
    exact ⟨this.1, fun h => this.2 (by simp [commandSteps] at h; omega)⟩
  | encblk b => exact blk _ b hk hr
  | decblk b => exact blk _ b hk hr
  | encrypt b key =>
    have hk' : k < 37 := hk
    have := cipher_phase (a := s.accept (.encrypt b key)) (key := key) rfl rfl rfl ⟨rfl, rfl⟩
      (by exact (by decide : BitVec.getLsbD (0b110#3) 2 = true)) (k := k) (by omega) hr
    exact ⟨this.1, fun h => this.2 (by simp [commandSteps] at h; omega)⟩
  | decrypt b key =>
    have hk' : k < 37 := hk
    have := cipher_phase (a := s.accept (.decrypt b key)) (key := key) rfl rfl rfl ⟨rfl, rfl⟩
      (by exact (by decide : BitVec.getLsbD (0b111#3) 2 = true)) (k := k) (by omega) hr
    exact ⟨this.1, fun h => this.2 (by simp [commandSteps] at h; omega)⟩
  | reserved000 =>
    obtain rfl := one hk
    exact ⟨rfl, fun h => absurd h (by simp [commandSteps])⟩
  | reserved001 =>
    obtain rfl := one hk
    exact ⟨rfl, fun h => absurd h (by simp [commandSteps])⟩
  | reserved011 =>
    obtain rfl := one hk
    exact ⟨rfl, fun h => absurd h (by simp [commandSteps])⟩

/-- A command that no reset interrupts ends after its tabulated steps. -/
theorem finish_command (i : Instr) (s : State) (n : Nat) (hn : commandSteps i s.KV = n + 1)
    (hr : s.noResetFor n = true) :
    State.finish maxInternalSteps (s.accept i) = State.busyTick^[n] (s.accept i) := by
  have h36 : n ≤ maxInternalSteps := by
    have := commandSteps_le i s.KV
    show n ≤ 36
    omega
  have hi : ∀ k, (s.accept i).noResetFor k = s.noResetFor k := fun k => by
    simp [State.noResetFor, accept_inputs]
  apply finish_eq_iterate (k := n) _ _ h36
  · intro j hj
    rw [(command_phase i s (by omega) (by rw [hi]; exact noResetFor_mono hr (by omega))).1,
      commandPhases_ready _ _ _ (by omega)]
    simp; omega
  · rw [(command_phase i s (by omega) (by rw [hi]; exact hr)).1,
      commandPhases_ready _ _ _ (by omega)]
    simp; omega

/-! ### Every command ends -/

/-- The most steps from a phase to the next ready phase (10_state.md R31; 44_block_driver.md R186). -/
def Phase.remaining : Phase → Nat
  | .ks i => 36 - i.val
  | .initial => 19
  | .permuted => 18
  | .round i => 17 - i.val
  | .preFinal => 1
  | .idle => 0
  | .final => 0
  | .failed => 0

/-- Every step of a busy core brings the next ready phase nearer. -/
theorem busyTick_remaining {s : State} (h : s.PH.ready = false) :
    s.busyTick.PH.remaining < s.PH.remaining := by
  cases hr : s.port.rst with
  | true =>
    rw [busyTick_of_reset hr]
    show 0 < s.PH.remaining
    cases hp : s.PH <;> simp [hp, Phase.ready] at h <;> simp [Phase.remaining] <;> omega
  | false =>
    rw [busyTick_of_no_reset hr]
    cases hp : s.PH with
    | idle => simp [hp, Phase.ready] at h
    | final => simp [hp, Phase.ready] at h
    | failed => simp [hp, Phase.ready] at h
    | initial => rw [internalStep_initial (by simpa using hp)]; exact (by decide : 18 < 19)
    | permuted => rw [internalStep_permuted (by simpa using hp)]; exact (by decide : 17 - 0 < 18)
    | preFinal => rw [internalStep_preFinal (by simpa using hp)]; exact (by decide : 0 < 1)
    | ks i =>
      by_cases hi : i.val < 16
      · rw [internalStep_ks (i := ⟨i.val, hi⟩) (by simpa using hp)]
        show 36 - (i.val + 1) < 36 - i.val
        omega
      · have hi' : i = Fin.last 16 := by ext; simp; omega
        subst hi'
        rw [internalStep_ks_last (by simpa using hp)]
        unfold State.ksDone
        split <;> simp [Phase.remaining]
    | round i =>
      by_cases hi : i.val + 1 < 16
      · rw [internalStep_round (by simpa using hp) hi]
        show 17 - (i.val + 1) < 17 - i.val
        omega
      · have hi' : i = Fin.last 15 := by ext; simp; omega
        subst hi'
        rw [internalStep_round_last (by simpa using hp)]
        exact (by decide : 1 < 17 - 15)

/-- Finishing with enough steps ends in a ready phase, whatever resets fall within it. -/
theorem finish_ready {s : State} {n : Nat} (h : s.PH.remaining ≤ n) :
    (State.finish n s).PH.ready = true := by
  induction n generalizing s with
  | zero =>
    show s.PH.ready = true
    cases hp : s.PH <;> simp [hp, Phase.remaining] at h <;> first | rfl | omega
  | succ n ih =>
    cases hb : s.PH.ready with
    | true => rw [finish_of_ready hb, hb]
    | false =>
      rw [finish_of_busy hb]
      exact ih (by have := busyTick_remaining hb; omega)

/-- After acceptance a command has at most `maxInternalSteps` steps to go. -/
theorem accept_remaining (i : Instr) (s : State) :
    (s.accept i).PH.remaining ≤ maxInternalSteps := by
  cases i <;> try (exact (by decide : Phase.remaining (.ks 0) ≤ maxInternalSteps))
  all_goals try (exact (by decide : Phase.remaining .failed ≤ maxInternalSteps))
  all_goals
    simp only [State.accept, State.acceptBlock]
    split
    · exact (by decide : Phase.remaining .initial ≤ maxInternalSteps)
    · exact (by decide : Phase.remaining .failed ≤ maxInternalSteps)

/-- A command from a ready phase ends in a ready phase. -/
theorem exec_ready {i : Instr} {s t : State} (hp : s.PH.ready = true) (h : exec i s = .next t) :
    t.PH.ready = true := by
  rw [exec_of_ready i hp] at h
  injection h with h
  rw [← h]
  exact finish_ready (accept_remaining i s)

end Sys2Proof.Machine
end

