-- ==== Sys2Proof/Machine/Text.lean ====
section
/-! DEFINITION. The textual notation of command sequences (30_encoding.md R99; 92 D18), over lists of
characters: one command a line, the mnemonic and its used operands, the block before the key, each
operand `0x` and exactly 16 hexadecimal digits; `RESET` for the reset event; a comment from `;` to
the end of the line. -/

namespace Sys2Proof.Machine

/-- What one line says. -/
inductive Line where
  /-- An empty line or a comment. -/
  | blank
  /-- `RESET`: the reset event; not a command, and without an opcode. -/
  | reset
  /-- A command. -/
  | command (i : Instr)
deriving DecidableEq, Repr

/-- A hexadecimal digit, in either case of letter. -/
def hexValue (c : Char) : Option Nat :=
  let n := c.toNat
  if 48 ≤ n ∧ n ≤ 57 then some (n - 48)
  else if 65 ≤ n ∧ n ≤ 70 then some (n - 55)
  else if 97 ≤ n ∧ n ≤ 102 then some (n - 87)
  else none

/-- The number of a sequence of hexadecimal digits, most significant first (00_scope.md R9). -/
def hexNumber : List Char → Nat → Option Nat
  | [], acc => some acc
  | c :: cs, acc =>
    match hexValue c with
    | some d => hexNumber cs (16 * acc + d)
    | none => none

/-- An operand: `0x` and exactly 16 hexadecimal digits. -/
def parseOperand : List Char → Option Block
  | '0' :: 'x' :: digits =>
    if digits.length = 16 then (hexNumber digits 0).map (BitVec.ofNat 64) else none
  | _ => none

/-- The line up to its comment. -/
def dropComment (line : List Char) : List Char := line.takeWhile fun c => c != ';'

/-- Splits a line into words at spaces; a comma is a word of its own. `word` is the present word,
reversed. -/
def splitWords : List Char → List Char → List (List Char)
  | [], word => if word.isEmpty then [] else [word.reverse]
  | c :: cs, word =>
    let before := if word.isEmpty then [] else [word.reverse]
    if c == ' ' then before ++ splitWords cs []
    else if c == ',' then before ++ [','] :: splitWords cs []
    else splitWords cs (c :: word)

/-- The mnemonics of the notation. -/
def mnemonicKEYGEN : List Char := ['K', 'E', 'Y', 'G', 'E', 'N']
def mnemonicENCBLK : List Char := ['E', 'N', 'C', 'B', 'L', 'K']
def mnemonicDECBLK : List Char := ['D', 'E', 'C', 'B', 'L', 'K']
def mnemonicENCRYPT : List Char := ['E', 'N', 'C', 'R', 'Y', 'P', 'T']
def mnemonicDECRYPT : List Char := ['D', 'E', 'C', 'R', 'Y', 'P', 'T']
def mnemonicRESET : List Char := ['R', 'E', 'S', 'E', 'T']

/-- A command with one operand. -/
def parseOne (m x : List Char) : Option Instr :=
  match parseOperand x with
  | none => none
  | some v =>
    if m == mnemonicKEYGEN then some (.keygen v)
    else if m == mnemonicENCBLK then some (.encblk v)
    else if m == mnemonicDECBLK then some (.decblk v)
    else none

/-- A command with two operands, the block before the key. -/
def parseTwo (m x y : List Char) : Option Instr :=
  match parseOperand x, parseOperand y with
  | some block, some key =>
    if m == mnemonicENCRYPT then some (.encrypt block key)
    else if m == mnemonicDECRYPT then some (.decrypt block key)
    else none
  | _, _ => none

/-- The meaning of the words of one line; no meaning for any other sequence of words. -/
def parseWords : List (List Char) → Option Line
  | [] => some .blank
  | [m] => if m == mnemonicRESET then some .reset else none
  | [m, x] => (parseOne m x).map .command
  | [m, x, comma, y] => if comma == [','] then (parseTwo m x y).map .command else none
  | _ => none

/-- One line of a command sequence. -/
def parseLine (line : List Char) : Option Line := parseWords (splitWords (dropComment line) [])

/-- The port sample of a line: `RESET` asserts `rst`, a command is presented. -/
def Line.sample : Line → Option PortSample
  | .blank => none
  | .reset => some { PortSample.quiet with rst := true }
  | .command i => some (PortSample.present i)

/-- The digit character of a number below 16. -/
def digitChar (n : Nat) : Char := Char.ofNat (if n < 10 then 48 + n else 55 + n)

/-- A block as an operand. -/
def renderOperand (b : Block) : List Char := '0' :: 'x' :: (hexDigits b).map digitChar

/-- A command as a line; the reserved opcodes have no mnemonic in the notation. -/
def renderCommand : Instr → Option (List Char)
  | .keygen key => some (mnemonicKEYGEN ++ ' ' :: renderOperand key)
  | .encblk block => some (mnemonicENCBLK ++ ' ' :: renderOperand block)
  | .decblk block => some (mnemonicDECBLK ++ ' ' :: renderOperand block)
  | .encrypt block key =>
    some (mnemonicENCRYPT ++ ' ' :: renderOperand block ++ [',', ' '] ++ renderOperand key)
  | .decrypt block key =>
    some (mnemonicDECRYPT ++ ' ' :: renderOperand block ++ [',', ' '] ++ renderOperand key)
  | .reserved000 => none
  | .reserved001 => none
  | .reserved011 => none

end Sys2Proof.Machine
end

