-- ==== Sys2Proof/Tests/Slice0.lean ====
section
/-! SUPPORT. Tests against values that 95_test_vectors.md states, and for each statement with hypotheses
a witness that meets them. -/

namespace Sys2Proof.Tests

open Sys2Proof.Machine

/-! ## Helpers -/

/-- The key of V1. -/
def keyK : Block := 0x133457799BBCDFF1

/-- The plaintext of V1. -/
def plainP : Block := 0x0123456789ABCDEF

/-- The ciphertext of V1. -/
def cipherCT : Block := 0x85E813540F0AB405

/-- The next state of a step, if it answers one. -/
def nextState (o : Host.Outcome State Fault Refusal) : Option State :=
  match o with
  | .next t => some t
  | .fault _ => none
  | .refused _ => none

/-- What a step from `s` that presents `i` leaves; `s` itself if it answers no next state. -/
def run (i : Instr) (s : State) : State :=
  (nextState (step { s with inputs := [PortSample.present i] })).getD s

/-- A ready core that holds the schedule of `K`, with a response on its ports. -/
def keyed : State :=
  { State.reset with
    RK := generateRoundKeys keyK, KV := true, OP := 0b101#3, OUT := 0x1122334455667788, STATUS := 1,
    PH := .final, L := 5, R := 6, IN := 7, C := 8, D := 9 }

/-- A core in phase `p` of an operation on `IN` = `P` with opcode `op`. -/
def busyIn (p : Phase) (op : Opcode) (kv : Bool) : State :=
  { State.reset with RK := generateRoundKeys keyK, KV := kv, OP := op, IN := plainP, PH := p }

/-- A sample that asserts `rst` and presents a command as well. -/
def resetSample : PortSample := { PortSample.present (.encblk plainP) with rst := true }

/-- The condition a call raises, if any. -/
def conditionOf {α : Type} (r : Except Condition α) : Option Condition :=
  match r with
  | .ok _ => none
  | .error e => some e

/-- The value a call returns, if any. -/
def valueOf (r : Except Condition RawBlock) : Option RawBlock :=
  match r with
  | .ok v => some v
  | .error _ => none

/-- `n` zero bits. -/
def zeros (n : Nat) : RawBlock := List.replicate n 0

/-! ## Ill-formed calls are refused by each check (V19) -/

theorem test_check_key_63 : conditionOf (Call.generateRoundKeys (zeros 63)).check =
    some .invalidLength := by decide
theorem test_check_key_65 : conditionOf (Call.generateRoundKeys (zeros 65)).check =
    some .invalidLength := by decide
theorem test_check_key_empty : conditionOf (Call.generateRoundKeys []).check =
    some .invalidLength := by decide
theorem test_check_key_value : conditionOf (Call.generateRoundKeys (2 :: zeros 63)).check =
    some .invalidBitValue := by decide
theorem test_check_input_56 : conditionOf (Call.processBlock (zeros 56) .encrypt).check =
    some .invalidLength := by decide
theorem test_check_input_value :
    conditionOf (Call.processBlock (zeros 63 ++ [120]) .decrypt).check = some .invalidBitValue := by
  decide
theorem test_check_encrypt_key_before_block :
    conditionOf (Call.encrypt (2 :: zeros 63) (zeros 63)).check = some .invalidLength ∧
      conditionOf (Call.encrypt (zeros 63) (2 :: zeros 63)).check = some .invalidBitValue := by decide
theorem test_check_encrypt_length_before_value :
    conditionOf (Call.encrypt (zeros 64 ++ [2]) (zeros 64)).check = some .invalidLength := by decide
theorem test_check_decrypt_operands :
    conditionOf (Call.decrypt (zeros 64) (zeros 63)).check = some .invalidLength ∧
      conditionOf (Call.decrypt (zeros 63) (zeros 64)).check = some .invalidLength := by decide
theorem test_wellFormed :
    (Call.encrypt (zeros 64) (zeros 64)).wellFormed = true ∧
      (Call.decrypt (zeros 64) (1 :: zeros 62)).wellFormed = false := by decide

/-! ## Decoding (the words of P1 to P4) -/

theorem test_decode_keygen :
    decode 0x20000000000000000133457799BBCDFF1 = .ok (.keygen keyK) := by decide +kernel
theorem test_decode_encblk :
    decode 0x40123456789ABCDEF0000000000000000 = .ok (.encblk plainP) := by decide +kernel
theorem test_decode_decblk :
    decode 0x585E813540F0AB4050000000000000000 = .ok (.decblk cipherCT) := by decide +kernel
theorem test_decode_encrypt :
    decode 0x60123456789ABCDEF133457799BBCDFF1 = .ok (.encrypt plainP keyK) := by decide +kernel
theorem test_decode_decrypt :
    decode 0x78CA64DE9C1B123A70000000000000000 = .ok (.decrypt 0x8CA64DE9C1B123A7 0) := by
  decide +kernel
theorem test_decode_reserved :
    decode 0 = .ok .reserved000 ∧ decode 0x10123456789ABCDEF133457799BBCDFF1 = .ok .reserved001 ∧
      decode 0x30123456789ABCDEF133457799BBCDFF1 = .ok .reserved011 := by decide +kernel
theorem test_decode_too_wide :
    decode (2 ^ 131) = .error .wordTooWide ∧ decode (2 ^ 131 - 1) =
      .ok (.decrypt (BitVec.allOnes 64) (BitVec.allOnes 64)) := by decide +kernel

/-- Every row of the opcode table, by its `match` value. -/
theorem test_table_words :
    (List.range 8).map (decodeTableWord 136) =
      [some .reserved000, some .reserved001, some (.keygen 0), some .reserved011, some (.encblk 0),
        some (.decblk 0), some (.encrypt 0 0), some (.decrypt 0 0)] ∧
    decodeTableWord 8 2 = some (.keygen 0) := by decide +kernel

/-- The word placed for the next step is the one that is presented, at reset and to a busy core. -/
theorem test_withFetchWord :
    (List.range 8).map (fun w => some (State.reset.withFetchWord 136 w).port.command) =
      (List.range 8).map (decodeTableWord 136) ∧
    ((busyIn .preFinal 0b100#3 true).withFetchWord 8 3).PH = .idle := by decide +kernel

/-! ## The utilities and the tables (V13, V14) -/

theorem test_rawPermute :
    valueOf (rawPermute [1, 0, 1, 1] [3, 0, 0, 2, 1]) = some [1, 1, 1, 1, 0] ∧
      valueOf (rawPermute [1, 0, 1, 1] []) = some [] ∧
      conditionOf (rawPermute [1, 0, 1, 1] [4]) = some .tableIndexOutOfRange ∧
      conditionOf (rawPermute [] [0]) = some .tableIndexOutOfRange := by decide
theorem test_rawXor :
    valueOf (rawXor [1, 1, 0, 0] [1, 0, 1, 0]) = some [0, 1, 1, 0] ∧
      conditionOf (rawXor [1, 0] [1]) = some .lengthMismatch := by decide
theorem test_rawRotateLeft :
    rawRotateLeft [1, 0, 0, 0, 0] 1 = [0, 0, 0, 0, 1] ∧
      rawRotateLeft [1, 0, 0, 0, 0] 5 = [1, 0, 0, 0, 0] ∧
      rawRotateLeft [1, 0, 0, 0, 0] 7 = [0, 0, 0, 1, 0] ∧
      rawRotateLeft [1, 1, 0, 0, 1, 0, 1] 2 = [0, 0, 1, 0, 1, 1, 1] := by decide
theorem test_rotateLeft :
    rotateLeft (0xF0CCAAF : KeyHalf) 1 = 0xE19955F ∧
      rotateLeft (0xC332ABF : KeyHalf) 2 = 0x0CCAAFF := by decide +kernel
theorem test_tables :
    permute 64 tableIP plainP = 0xCC00CCFFF0AAF0AA ∧
      permute 64 tableFP (0x0A4CD99543423234 : Block) = cipherCT ∧
      permute 48 tableE (0xF0AAF0AA : Half) = 0x7A15557A1555 ∧
      permute 32 tableP (0x5C82B597 : Half) = 0x234AA9BB ∧
      permute 56 tablePC1 keyK = 0xF0CCAAF556678F ∧
      permute 48 tablePC2 (0xE19955FAACCF1E : PermutedKey) = 0x1B02EFFC7072 := by decide +kernel

/-- V3: the stages of `feistel_f`, and the corner values of V16. -/
theorem test_feistelF :
    substitute 0x6117BA866527 = 0x5C82B597 ∧
      feistelF 0xF0AAF0AA 0x1B02EFFC7072 = 0x234AA9BB ∧ feistelF 0 0 = 0xD8D8DBBC ∧
      feistelF 0xFFFFFFFF 0 = 0x38DBF9CB ∧ feistelF 0x80000000 0 = 0xD0585B9E := by decide +kernel

/-- V5, V8, V9 and V10 row 5. -/
theorem test_cipher_vectors :
    encryptBlock 0x8000000000000000 0x0101010101010101 = 0x95F8A5E5DD31D900 ∧
      encryptBlock 0 0x8001010101010101 = 0x95A8D72813DAA94D ∧
      encryptBlock 0 0x0101010101010102 = 0x869EFD7F9F265A09 ∧
      encryptBlock 0x4E6F772069732074 0x0123456789ABCDEF = 0x3FA40E8A984D4815 := by decide +kernel

/-- The source's function level on V1. -/
theorem test_rawEncrypt :
    valueOf (rawEncrypt (rawOfBits plainP) (rawOfBits keyK)) = some (rawOfBits cipherCT) := by
  decide +kernel
theorem test_rawDecrypt :
    valueOf (rawDecrypt (rawOfBits cipherCT) (rawOfBits keyK)) = some (rawOfBits plainP) := by
  decide +kernel

/-! ## Each command, one step -/

/-- V2, V18, P1. -/
theorem test_keygen :
    let t := run (.keygen keyK) State.reset
    t.RK.toList.take 3 = [0x1B02EFFC7072, 0x79AED9DBC9E5, 0x55FC8A42CF99] ∧
      t.RK.toList.drop 15 = [0xCB3D8B0E17F5] ∧ t.KV = true ∧ t.PH = .final ∧ t.STATUS = 1 ∧
      t.OUT = 0 ∧ t.OP = 0b010#3 ∧ t.C = 0xF0CCAAF ∧ t.D = 0x556678F := by decide +kernel

/-- P1: `ENCBLK` with the schedule of `K`. -/
theorem test_encblk :
    let t := run (.encblk plainP) keyed
    t.OUT = cipherCT ∧ t.PH = .final ∧ t.STATUS = 1 ∧ t.OP = 0b100#3 ∧ t.IN = plainP ∧
      t.L = 0x43423234 ∧ t.R = 0x0A4CD995 ∧ t.RK = keyed.RK ∧ t.C = keyed.C := by decide +kernel

/-- V18, P3: `ENCBLK` without a key. -/
theorem test_encblk_no_key :
    let t := run (.encblk plainP) State.reset
    t.PH = .failed ∧ t.STATUS = 7 ∧ t.OUT = 0 ∧ t.OP = 0b100#3 ∧ t.IN = State.reset.IN := by
  decide +kernel

/-- P1: `DECBLK` with the schedule of `K`. -/
theorem test_decblk :
    let t := run (.decblk cipherCT) keyed
    t.OUT = plainP ∧ t.PH = .final ∧ t.STATUS = 1 ∧ t.OP = 0b101#3 ∧ t.L = 0xF0AAF0AA ∧
      t.R = 0xCC00CCFF := by decide +kernel

/-- V18: `DECBLK` without a key. -/
theorem test_decblk_no_key :
    let t := run (.decblk cipherCT) State.reset
    t.PH = .failed ∧ t.STATUS = 7 ∧ t.OUT = 0 ∧ t.KV = false := by decide +kernel

/-- V18: `ENCRYPT` from reset. -/
theorem test_encrypt :
    let t := run (.encrypt plainP keyK) State.reset
    t.OUT = cipherCT ∧ t.PH = .final ∧ t.STATUS = 1 ∧ t.OP = 0b110#3 ∧ t.KV = true ∧
      t.RK = generateRoundKeys keyK := by decide +kernel

/-- P2: the all-zero boundary case. -/
theorem test_encrypt_zero :
    let t := run (.encrypt 0 0) State.reset
    t.OUT = 0x8CA64DE9C1B123A7 ∧ t.L = 0xBBEA0DC2 ∧ t.R = 0x1C2087FC ∧ t.C = 0 := by decide +kernel

/-- V18: `DECRYPT` from reset. -/
theorem test_decrypt :
    let t := run (.decrypt cipherCT keyK) State.reset
    t.OUT = plainP ∧ t.PH = .final ∧ t.STATUS = 1 ∧ t.OP = 0b111#3 ∧ t.KV = true := by decide +kernel

/-- P2: a block of zeros as a result. -/
theorem test_decrypt_zero :
    let t := run (.decrypt 0x8CA64DE9C1B123A7 0) State.reset
    t.OUT = 0 ∧ t.STATUS = 1 ∧ t.PH = .final := by decide +kernel

/-- P3: a reserved opcode clears the result and leaves the schedule. -/
theorem test_reserved000 :
    run .reserved000 keyed = { keyed with OP := 0b000#3, OUT := 0, STATUS := 6, PH := .failed } := by
  decide +kernel
theorem test_reserved001 :
    run .reserved001 keyed = { keyed with OP := 0b001#3, OUT := 0, STATUS := 6, PH := .failed } := by
  decide +kernel
theorem test_reserved011 :
    run .reserved011 State.reset =
      { State.reset with OP := 0b011#3, OUT := 0, STATUS := 6, PH := .failed } := by decide +kernel

/-- A reset that falls into a command abandons it (R241). -/
theorem test_reset_during_keygen :
    nextState (step { keyed with inputs := [PortSample.present (.keygen keyK), .quiet, resetSample] }) =
      some State.reset := by decide +kernel

/-- A presented command waits while the core is busy (R243). -/
theorem test_busy_command_waits :
    run (.keygen keyK) (busyIn .initial 0b100#3 true) =
      { busyIn .initial 0b100#3 true with L := 0xCC00CCFF, R := 0xF0AAF0AA, PH := .permuted } := by
  decide +kernel

/-! ## Trace, text and bytes -/

/-- V20: the first and the last event of `ENCRYPT P, K`, and their number. -/
theorem test_trace_encrypt :
    let ev := State.traceRun 37 { State.reset with inputs := [PortSample.present (.encrypt plainP keyK)] }
    ev.length = 35 ∧ ev.take 2 = [⟨1, 0x00F0CCAAF556678F, 0⟩, ⟨2, 0x00E19955FAACCF1E, 0x1B02EFFC7072⟩] ∧
      ev.drop 33 = [⟨35, 0x434232340A4CD995, 0xCB3D8B0E17F5⟩, ⟨37, 0x85E813540F0AB405, 0⟩] := by
  decide +kernel

/-- A line of P1, with its comment. -/
theorem test_parseLine :
    parseLine ['K', 'E', 'Y', 'G', 'E', 'N', ' ', '0', 'x', '1', '3', '3', '4', '5', '7', '7', '9', '9',
      'B', 'B', 'C', 'D', 'F', 'F', '1', ' ', ';', 'w'] = some (.command (.keygen keyK)) ∧
    parseLine ['R', 'E', 'S', 'E', 'T'] = some .reset ∧ parseLine [] = some .blank ∧
    parseLine ['E', 'N', 'C', 'B', 'L', 'K', ' ', '0', 'x', '1', '3'] = none := by decide +kernel

/-- A rendered line reads back. -/
theorem test_render_parse :
    (renderCommand (.encrypt plainP keyK)).bind parseLine = some (.command (.encrypt plainP keyK)) := by
  decide +kernel

/-- V10 row 5: the eight characters of `Now is t`. -/
theorem test_blockOfBytes :
    blockOfBytes #v[0x4E, 0x6F, 0x77, 0x20, 0x69, 0x73, 0x20, 0x74] = 0x4E6F772069732074 := by
  decide +kernel

/-- The hexadecimal digits of `P`. -/
theorem test_hexDigits : hexDigits plainP = List.range 16 := by decide +kernel

/-! ## Witnesses: states and operands that meet the hypotheses of each statement -/

/-- ResetHasPriorityInEveryPhase, in a busy phase with a command presented. -/
theorem witness_reset_priority :
    ∃ s : State, s.port.rst = true ∧ s.PH.ready = false ∧ s.port.cmdValid = true :=
  ⟨(busyIn (.ks 3) 0b010#3 false).withSample resetSample, by decide⟩

/-- ResetAbandonsCommandInProgress, at the latest and the earliest step a reset can fall. -/
theorem witness_reset_abandons :
    (∃ (i : Instr) (s : State) (before : List PortSample) (p : PortSample) (after : List PortSample),
      s.PH.ready = true ∧ s.inputs = before ++ p :: after ∧ (∀ q ∈ before, q.rst = false) ∧
        p.rst = true ∧ before.length + 1 < commandSteps i s.KV ∧ before.length = 16) ∧
    ∃ (i : Instr) (s : State) (before : List PortSample) (p : PortSample) (after : List PortSample),
      s.PH.ready = true ∧ s.inputs = before ++ p :: after ∧ (∀ q ∈ before, q.rst = false) ∧
        p.rst = true ∧ before.length + 1 < commandSteps i s.KV ∧ before.length = 0 :=
  ⟨⟨.keygen keyK, { State.reset with inputs := List.replicate 16 .quiet ++ [resetSample] },
      List.replicate 16 .quiet, resetSample, [], by decide⟩,
    ⟨.encblk plainP, { keyed with inputs := [resetSample] }, [], resetSample, [], rfl, rfl,
      by decide, rfl, by decide, rfl⟩⟩

/-- StepRunsPresentedCommand, both clauses. -/
theorem witness_step_runs :
    (∃ s : State, s.port.rst = false ∧ s.port.cmdValid = true) ∧
    ∃ (i : Instr) (s : State) (rest : List PortSample), s.inputs = PortSample.present i :: rest :=
  ⟨⟨keyed.withSample (.present (.encblk plainP)), by decide⟩,
    ⟨.reserved011, keyed.withSample (.present .reserved011), [], rfl⟩⟩

/-- ReadyCoreKeepsResponse, with a response on the ports. -/
theorem witness_ready_core :
    ∃ s : State, s.PH.ready = true ∧ s.port.rst = false ∧ s.port.cmdValid = false ∧ s.OUT ≠ 0 :=
  ⟨keyed, by decide⟩

/-- BusyCoreDoesNotAccept. -/
theorem witness_busy_core :
    ∃ (s : State) (p q : PortSample), s.PH.ready = false ∧ p.rst = false ∧ q.rst = false ∧
      p.cmdValid = true ∧ q.cmdValid = false :=
  ⟨busyIn .initial 0b100#3 true, .present (.keygen keyK), .quiet, by decide⟩

/-- UnusedOperandsHaveNoEffect: `ENCBLK` with two keys, `KEYGEN` with two blocks. -/
theorem witness_unused_operands :
    (∃ p q : PortSample, p.rst = q.rst ∧ p.cmdValid = q.cmdValid ∧ p.cmdOp = q.cmdOp ∧
      (p.cmdOp ∈ [0b100#3, 0b101#3, 0b110#3, 0b111#3] → p.cmdBlock = q.cmdBlock) ∧
      (p.cmdOp ∈ [0b010#3, 0b110#3, 0b111#3] → p.cmdKey = q.cmdKey) ∧ p.cmdKey ≠ q.cmdKey) ∧
    ∃ p q : PortSample, p.rst = q.rst ∧ p.cmdValid = q.cmdValid ∧ p.cmdOp = q.cmdOp ∧
      (p.cmdOp ∈ [0b100#3, 0b101#3, 0b110#3, 0b111#3] → p.cmdBlock = q.cmdBlock) ∧
      (p.cmdOp ∈ [0b010#3, 0b110#3, 0b111#3] → p.cmdKey = q.cmdKey) ∧ p.cmdBlock ≠ q.cmdBlock :=
  ⟨⟨.present (.encblk plainP), { PortSample.present (.encblk plainP) with cmdKey := keyK }, by decide⟩,
    ⟨.present (.keygen keyK), { PortSample.present (.keygen keyK) with cmdBlock := plainP }, by decide⟩⟩

/-- AcceptOfKeyBearingCommand, for each of the three opcodes. -/
theorem witness_accept_key_bearing :
    ∀ op ∈ [0b010#3, 0b110#3, 0b111#3], ∃ s : State, s.PH.ready = true ∧ s.port.rst = false ∧
      s.port.cmdValid = true ∧ s.port.cmdOp = op ∧ s.port.cmdOp ∈ [0b010#3, 0b110#3, 0b111#3] := by
  intro op h
  refine ⟨keyed.withSample { PortSample.present (.keygen keyK) with cmdOp := op }, rfl, rfl, rfl, rfl, h⟩

/-- AcceptOfBlockOnlyCommand, with and without a valid key. -/
theorem witness_accept_block_only :
    (∃ s : State, s.PH.ready = true ∧ s.port.rst = false ∧ s.port.cmdValid = true ∧
      s.port.cmdOp ∈ [0b100#3, 0b101#3] ∧ s.KV = true) ∧
    ∃ s : State, s.PH.ready = true ∧ s.port.rst = false ∧ s.port.cmdValid = true ∧
      s.port.cmdOp ∈ [0b100#3, 0b101#3] ∧ s.KV = false :=
  ⟨⟨keyed.withSample (.present (.encblk plainP)), by decide⟩,
    ⟨State.reset.withSample (.present (.decblk plainP)), by decide⟩⟩

/-- AcceptOfReservedOpcode. -/
theorem witness_accept_reserved :
    ∃ s : State, s.PH.ready = true ∧ s.port.rst = false ∧ s.port.cmdValid = true ∧
      s.port.cmdOp ∈ [0b000#3, 0b001#3, 0b011#3] :=
  ⟨keyed.withSample (.present .reserved011), by decide⟩

/-- KeyScheduleRoundStep, in the first and the last round. -/
theorem witness_ks_round :
    ∀ i : Fin 16, ∃ s : State, s.PH = .ks i.castSucc ∧ s.port.rst = false :=
  fun i => ⟨busyIn (.ks i.castSucc) 0b010#3 false, rfl, rfl⟩

/-- KeyScheduleDoneStep, with and without a block operation to follow. -/
theorem witness_ks_done :
    (∃ s : State, s.PH = .ks (Fin.last 16) ∧ s.port.rst = false ∧ s.OP.getLsbD 2 = true) ∧
    ∃ s : State, s.PH = .ks (Fin.last 16) ∧ s.port.rst = false ∧ s.OP.getLsbD 2 = false :=
  ⟨⟨busyIn (.ks 16) 0b110#3 false, by decide⟩, ⟨busyIn (.ks 16) 0b010#3 false, by decide⟩⟩

/-- InitialPermutationStep and both clauses of FinalSteps. -/
theorem witness_driver_steps :
    (∃ s : State, s.PH = .initial ∧ s.port.rst = false) ∧
    (∃ s : State, s.PH = .round (Fin.last 15) ∧ s.port.rst = false) ∧
    ∃ s : State, s.PH = .preFinal ∧ s.port.rst = false :=
  ⟨⟨busyIn .initial 0b100#3 true, by decide⟩, ⟨busyIn (.round 15) 0b100#3 true, by decide⟩,
    ⟨busyIn .preFinal 0b100#3 true, by decide⟩⟩

/-- FeistelRoundStep, in every round and both modes. -/
theorem witness_feistel_round :
    ∀ (i : Fin 16) (m : Bool), ∃ s : State,
      s.PH = (if i.val = 0 then Phase.permuted else Phase.round (Fin.ofNat 16 (i.val - 1))) ∧
      s.port.rst = false ∧ s.OP.getLsbD 0 = m :=
  fun i m => ⟨busyIn _ (if m then 0b101#3 else 0b100#3) true, rfl, rfl, by cases m <;> simp [busyIn]⟩

/-- KeygenCompletes. -/
theorem witness_keygen_completes :
    ∃ s : State, s.PH.ready = true ∧ s.noResetFor 17 = true := ⟨keyed, by decide⟩

/-- EncblkCompletes and DecblkCompletes. -/
theorem witness_block_completes :
    ∃ s : State, s.PH.ready = true ∧ s.KV = true ∧ s.noResetFor 19 = true := ⟨keyed, by decide⟩

/-- BlockCommandsWithoutKeyFail. -/
theorem witness_no_key : ∃ s : State, s.PH.ready = true ∧ s.KV = false := ⟨State.reset, by decide⟩

/-- EncryptCompletes, DecryptCompletes, KeygenThenBlockEqualsFullCipher and
PresentedCallsGiveTheSourceResult: also with samples to come and a reset right after the last step. -/
theorem witness_cipher_completes :
    (∃ s : State, s.PH.ready = true ∧ s.noResetFor 36 = true ∧ s.inputs = []) ∧
    ∃ s : State, s.PH.ready = true ∧ s.noResetFor 36 = true ∧ s.noResetFor 37 = false :=
  ⟨⟨keyed, by decide⟩,
    ⟨{ keyed with inputs := List.replicate 36 (.present .reserved011) ++ [resetSample] }, by decide⟩⟩

/-- ReservedCommandsFail. -/
theorem witness_reserved : ∃ s : State, s.PH.ready = true ∧ s.KV = true := ⟨keyed, by decide⟩

/-- CommandIsRunOfStepMachine and TraceOfEveryCommand, for every command, with and without a valid
key. -/
theorem witness_command_run :
    ∀ (i : Instr) (kv : Bool), ∃ (s : State) (n : Nat), s.PH.ready = true ∧ s.port.cmdValid = true ∧
      n = commandSteps s.port.command s.KV ∧ s.noResetFor n = true ∧ s.port.cmdOp = i.opcode ∧
      s.KV = kv := by
  intro i kv
  refine ⟨{ keyed with KV := kv, inputs := [.present i] }, _, rfl, rfl, rfl, ?_, rfl, rfl⟩
  simp only [State.noResetFor, List.all_eq_true]
  intro p hp
  have := List.mem_of_mem_take hp
  simp at this
  subst this
  rfl

/-- CommandIsRunOfStepMachine in its shortest case: `ENCBLK` without a valid key takes one step. -/
theorem witness_command_run_one_step :
    ∃ s : State, s.PH.ready = true ∧ s.port.cmdValid = true ∧ s.KV = false ∧
      commandSteps s.port.command s.KV = 1 ∧ s.noResetFor 1 = true ∧ s.port.cmdOp = 0b100#3 :=
  ⟨State.reset.withSample (.present (.encblk plainP)), by decide⟩

/-- RoundKeysImmutableDuringBlockOperation, both clauses. -/
theorem witness_immutable_keys :
    (∃ s : State, s.PH.inDriver = true ∧ s.port.rst = false) ∧
    ∃ s : State, s.PH.ready = true ∧ s.port.rst = false ∧ s.port.cmdValid = true ∧
      s.port.cmdOp ∈ [0b100#3, 0b101#3] :=
  ⟨⟨busyIn (.round 7) 0b101#3 true, by decide⟩, ⟨keyed.withSample (.present (.decblk 0)), by decide⟩⟩

/-- FailuresArePrecise, FailingCommandFailsAgain: a failure of each of the two kinds. -/
theorem witness_failures :
    (∃ (i : Instr) (s t : State), s.PH.ready = true ∧ exec i s = .next t ∧ t.PH = .failed ∧
      t.STATUS = 6) ∧
    ∃ (i : Instr) (s t : State), s.PH.ready = true ∧ exec i s = .next t ∧ t.PH = .failed ∧
      t.STATUS = 7 :=
  ⟨⟨.reserved000, keyed, _, rfl, rfl, by decide⟩, ⟨.encblk 0, State.reset, _, rfl, rfl, by decide⟩⟩

/-- SourceConditionsNeverReported: a busy and a ready state for its first two clauses, and for the third a
command that ends in each of the three phases. -/
theorem witness_statuses :
    (∃ s : State, s.PH.ready = false ∧ s.STATUS ∈ [0, 1, 6, 7]) ∧
    (∃ s : State, s.PH.ready = true ∧ s.STATUS ∈ [0, 1, 6, 7] ∧ s.STATUS ≠ 0) ∧
    (∃ (i : Instr) (s t : State), s.PH.ready = true ∧ exec i s = .next t ∧ t.PH = .final) ∧
    (∃ (i : Instr) (s t : State), s.PH.ready = true ∧ exec i s = .next t ∧ t.PH = .failed) ∧
    ∃ (i : Instr) (s t : State), s.PH.ready = true ∧ exec i s = .next t ∧ t.PH = .idle :=
  ⟨⟨busyIn .initial 0b100#3 true, by decide⟩, ⟨keyed, by decide⟩,
    ⟨.encblk plainP, keyed, _, rfl, rfl, by decide +kernel⟩,
    ⟨.decblk 0, State.reset, _, rfl, rfl, by decide⟩,
    ⟨.keygen keyK, { keyed with inputs := [resetSample] }, _, rfl, rfl, by decide⟩⟩

/-- LeftoverValuesHaveNoInfluence: two cores with equal schedules, and two without a valid one. -/
theorem witness_leftover :
    (∃ s t : State, s.PH.ready = true ∧ t.PH.ready = true ∧ s.KV = t.KV ∧
      (s.KV = true → s.RK = t.RK) ∧ s.inputs = t.inputs ∧ s.KV = true ∧ s.L ≠ t.L) ∧
    ∃ s t : State, s.PH.ready = true ∧ t.PH.ready = true ∧ s.KV = t.KV ∧
      (s.KV = true → s.RK = t.RK) ∧ s.inputs = t.inputs ∧ s.KV = false ∧ s.RK ≠ t.RK :=
  ⟨⟨keyed, { keyed with L := 1, C := 2 }, rfl, rfl, rfl, fun _ => rfl, rfl, rfl, by decide⟩,
    ⟨State.reset, { State.reset with RK := Vector.replicate 16 1 }, rfl, rfl, rfl,
      fun h => absurd h (by decide), rfl, rfl, by decide⟩⟩

/-- A busy state that meets the invariant: `ENCBLK` just accepted. -/
theorem inv_initial : (busyIn .initial 0b100#3 true).Inv where
  idle h := absurd h (by decide)
  busy _ := by decide
  keyed _ := ⟨keyK, rfl⟩
  keySchedule _ h := by simp [busyIn] at h
  driver _ := by decide
  rounds _ h := by simp [busyIn, Phase.roundsDone] at h
  final h := absurd h (by decide)
  failed h := absurd h (by decide)

/-- A state in `Final` that meets the invariant. -/
theorem inv_final :
    ({ busyIn .final 0b010#3 true with STATUS := 1 } : State).Inv where
  idle h := absurd h (by decide)
  busy h := absurd h (by decide)
  keyed _ := ⟨keyK, rfl⟩
  keySchedule _ h := by simp [busyIn] at h
  driver h := absurd h (by decide)
  rounds _ h := by simp [busyIn, Phase.roundsDone] at h
  final _ := by decide
  failed h := absurd h (by decide)

/-- A state in `Failed` that meets the invariant. -/
theorem inv_failed :
    ({ State.reset with PH := .failed, STATUS := 7, OP := 0b101#3 } : State).Inv where
  idle h := absurd h (by decide)
  busy h := absurd h (by decide)
  keyed h := absurd h (by decide)
  keySchedule _ h := by simp at h
  driver h := absurd h (by decide)
  rounds _ h := by simp [Phase.roundsDone] at h
  final h := absurd h (by decide)
  failed _ := by decide

/-- A state in `Idle` that meets the invariant, with a command presented. -/
theorem inv_idle : (State.reset.withSample (.present (.keygen keyK))).Inv where
  idle _ := by decide
  busy h := absurd h (by decide)
  keyed h := absurd h (by decide)
  keySchedule _ h := by simp [State.reset, State.withSample] at h
  driver h := absurd h (by decide)
  rounds _ h := by simp [State.reset, State.withSample, Phase.roundsDone] at h
  final h := absurd h (by decide)
  failed h := absurd h (by decide)

/-- StepKeepsInvariant: an internal step and a command. -/
theorem witness_step_invariant :
    (∃ s t : State, s.Inv ∧ step s = .next t ∧ s.PH.ready = false) ∧
    ∃ s t : State, s.Inv ∧ step s = .next t ∧ s.port.cmdValid = true ∧ s.PH.ready = true :=
  ⟨⟨_, _, inv_initial, rfl, rfl⟩, ⟨_, _, inv_idle, rfl, rfl, rfl⟩⟩

/-- TickKeepsInvariant and the four clauses of OutputsShowNothingInProgress. -/
theorem witness_invariant_phases :
    (∃ s : State, s.Inv ∧ s.PH.ready = false) ∧ (∃ s : State, s.Inv ∧ s.PH = .idle) ∧
    (∃ s : State, s.Inv ∧ s.PH = .final) ∧ ∃ s : State, s.Inv ∧ s.PH = .failed :=
  ⟨⟨_, inv_initial, rfl⟩, ⟨_, inv_idle, rfl⟩, ⟨_, inv_final, rfl⟩, ⟨_, inv_failed, rfl⟩⟩

/-- UtilitiesBitByBit, at the last index of each width. -/
theorem witness_utilities :
    (∃ (m : Nat) (table : List Nat) (i : Nat), table.length = m ∧ i < m ∧ i + 1 = m) ∧
    ∃ n i : Nat, i < n ∧ i + 1 = n :=
  ⟨⟨64, tableIP, 63, by decide⟩, ⟨28, 27, by decide⟩⟩

/-- PermuteFailsExactlyOutOfRange, both clauses at the boundary index. -/
theorem witness_permute :
    (∃ (input : RawBlock) (table : List Nat), (∀ idx ∈ table, idx < input.length) ∧ 3 ∈ table ∧
      input.length = 4) ∧
    ∃ (input : RawBlock) (table : List Nat), ∃ idx ∈ table, input.length ≤ idx ∧ idx = 4 :=
  ⟨⟨[1, 0, 1, 1], [3, 0, 0, 2, 1], by decide⟩, ⟨[1, 0, 1, 1], [4], by decide⟩⟩

/-- ParityBitsAreIgnored: the two keys of V2. -/
theorem witness_parity :
    ∃ k k' : Block, (∀ i < 64, i % 8 ≠ 7 → blockBit k i = blockBit k' i) ∧ k ≠ k' :=
  ⟨keyK, 0x123456789ABCDEF0, by decide +kernel⟩

/-- ConstantHalvesGiveEqualRoundKeys: the four combinations (V15). -/
theorem witness_constant_halves :
    (keyC0 0x0101010101010101 = 0 ∧ keyD0 0x0101010101010101 = 0) ∧
    (keyC0 0xFEFEFEFEFEFEFEFE = BitVec.allOnes 28 ∧ keyD0 0xFEFEFEFEFEFEFEFE = BitVec.allOnes 28) ∧
    (keyC0 0x1F1F1F1F0E0E0E0E = 0 ∧ keyD0 0x1F1F1F1F0E0E0E0E = BitVec.allOnes 28) ∧
    (keyC0 0xE0E0E0E0F1F1F1F1 = BitVec.allOnes 28 ∧ keyD0 0xE0E0E0E0F1F1F1F1 = 0) := by decide +kernel

/-- KeyScheduleIsDeterministic, from two different states. -/
theorem witness_deterministic :
    ∃ s s' t t' : State, s.PH.ready = true ∧ s'.PH.ready = true ∧ s.noResetFor 17 = true ∧
      s'.noResetFor 17 = true ∧ exec (.keygen keyK) s = .next t ∧ exec (.keygen keyK) s' = .next t' ∧
      s.PH ≠ s'.PH :=
  ⟨keyed, State.reset, _, _, rfl, rfl, rfl, rfl, rfl, rfl, by decide⟩

/-- SubstitutionByChunks, DecryptionMirrorsEncryption, PortBitOrder: the ends of their ranges. -/
theorem witness_ranges : (0 < 8 ∧ 7 < 8) ∧ (0 ≤ 16 ∧ 16 ≤ 16) ∧ 0 < 64 ∧ 63 < 64 := by decide

/-- RoundFunctionUnchangedByInversion, first clause, on different operands (V16). -/
theorem witness_round_inversion :
    ∃ (r r' : Half) (k k' : RoundKey),
      permute 48 tableE r ^^^ k = permute 48 tableE r' ^^^ k' ∧ r ≠ r' :=
  ⟨0, 0xFFFFFFFF, 0, 0xFFFFFFFFFFFF, by decide +kernel⟩

/-- EqualRoundKeysMakeModesEqual. -/
theorem witness_equal_round_keys :
    ∃ rk : RoundKeys, (∀ i j : Fin 16, rk.get i = rk.get j) ∧ rk.get 0 ≠ 0 :=
  ⟨Vector.replicate 16 0xFFFFFF000000, by decide +kernel⟩

/-- MalformedCallsRaiseTheFirstCondition: a key and a block for each of its five clauses. -/
theorem witness_malformed_calls :
    ((zeros 65).length ≠ 64) ∧
    ((zeros 63 ++ [2]).length = 64 ∧ ∃ x ∈ zeros 63 ++ [2], x ≠ 0 ∧ x ≠ 1) ∧
    ((zeros 64).length = 64 ∧ (∀ x ∈ zeros 64, x = 0 ∨ x = 1) ∧ (zeros 63).length ≠ 64) ∧
    ((List.replicate 64 1).length = 64 ∧ ∀ x ∈ List.replicate 64 1, x = 0 ∨ x = 1) := by decide

/-- PresentedCallsGiveTheSourceResult: `encrypt` and `decrypt` calls that fail and that return. -/
theorem witness_presented_calls :
    (∃ (block key : RawBlock) (e : Condition), rawEncrypt block key = .error e ∧
      rawDecrypt block key = .error e) ∧
    ∃ (block key out out' : RawBlock), rawEncrypt block key = .ok out ∧
      rawDecrypt block key = .ok out' :=
  ⟨⟨zeros 63, zeros 63, .invalidLength, rfl, rfl⟩,
    ⟨rawOfBits plainP, rawOfBits keyK,
      (valueOf (rawEncrypt (rawOfBits plainP) (rawOfBits keyK))).getD [],
      (valueOf (rawDecrypt (rawOfBits plainP) (rawOfBits keyK))).getD [], by decide +kernel⟩⟩

/-- PresentedCallsGiveTheSourceResult: `generate_round_keys` calls that fail and that return. -/
theorem witness_presented_key_calls :
    (∃ (key : RawBlock) (e : Condition), rawGenerateRoundKeys key = .error e) ∧
    ∃ (key : RawBlock) (keys : Vector RawBlock 16), rawGenerateRoundKeys key = .ok keys :=
  ⟨⟨zeros 63, .invalidLength, rfl⟩,
    ⟨zeros 64, Vector.replicate 16 (zeros 48), by decide +kernel⟩⟩

/-- PresentedCallsGiveTheSourceResult: `process_block` calls that fail and that return, the latter with
and without valid round keys. -/
theorem witness_presented_block_calls :
    (∃ (block : RawBlock) (s : State) (e : Condition), s.PH.ready = true ∧ s.noResetFor 36 = true ∧
      rawProcessBlock block (s.RK.map rawOfBits) .decrypt = .error e) ∧
    ∀ kv : Bool, ∃ (block out : RawBlock) (s : State), s.PH.ready = true ∧ s.noResetFor 36 = true ∧
      s.KV = kv ∧ rawProcessBlock block (s.RK.map rawOfBits) .encrypt = .ok out :=
  ⟨⟨zeros 63, State.reset, .invalidLength, rfl, rfl, rfl⟩,
    fun kv => ⟨zeros 64, rawOfBits (0x8CA64DE9C1B123A7 : Block), { State.reset with KV := kv }, rfl,
      rfl, rfl, by revert kv; decide +kernel⟩⟩

end Sys2Proof.Tests
end

section
/-! The state after reset (10_state.md R37). -/

namespace Sys2Proof.Machine

/-- The outputs in `Idle` while the registers behind the response ports are clear (R32): the core is
ready and shows no response. -/
theorem outputs_of_idle {s : State} (hph : s.PH = .idle) (hstatus : s.STATUS = 0) (hout : s.OUT = 0) :
    s.outputs = { cmdReady := true, rspValid := false, rspStatus := 0, rspBlock := 0 } := by
  simp [State.outputs, hph, hstatus, hout, Phase.ready, Phase.responds, portOfBlock]

/-- Settles O1: the registers are those of the reset state's definition, and its outputs are those of
a clear `Idle` state. -/
theorem resetStateAsTabulated : Obligations.ResetStateAsTabulated :=
  ⟨rfl, rfl, rfl, rfl, rfl, outputs_of_idle rfl rfl rfl⟩

end Sys2Proof.Machine
end

section
/-! The 6-bit encoding of the phases (30_encoding.md R97). -/

namespace Sys2Proof.Machine

/-- The number of `KS(i)`: 1 to 17. -/
@[simp] theorem code_ks_toNat (i : Fin 17) : (Phase.code (.ks i)).toNat = 1 + i.val := by
  simp only [Phase.code, BitVec.toNat_ofNat]
  omega

/-- The number of `Round[i+1]`: 20 to 35. -/
@[simp] theorem code_round_toNat (i : Fin 16) : (Phase.code (.round i)).toNat = 20 + i.val := by
  simp only [Phase.code, BitVec.toNat_ofNat]
  omega

/-- The numbers 39 to 63 are never held. -/
theorem code_toNat_lt (p : Phase) : (Phase.code p).toNat < 39 := by
  cases p with
  | ks i => rw [code_ks_toNat]; omega
  | round i => rw [code_round_toNat]; omega
  | idle | initial | permuted | preFinal | final | failed => decide

/-- The table of R97 read from the number to the phase. A number that no phase has reads as
`Failed`, the table's last row. -/
def phaseOfNumber (n : Nat) : Phase :=
  if n = 0 then .idle
  else if n < 18 then .ks (Fin.ofNat 17 (n - 1))
  else if n = 18 then .initial
  else if n = 19 then .permuted
  else if n < 36 then .round (Fin.ofNat 16 (n - 20))
  else if n = 36 then .preFinal
  else if n = 37 then .final
  else .failed

/-- Reading the table backwards recovers the phase from its number. -/
theorem phaseOfNumber_code (p : Phase) : phaseOfNumber (Phase.code p).toNat = p := by
  cases p with
  | ks i =>
    have hlt : 1 + i.val < 18 := by omega
    simp [phaseOfNumber, hlt]
  | round i =>
    have hlt : 20 + i.val < 36 := by omega
    have hge : ¬ 20 + i.val < 18 := by omega
    have hne : 20 + i.val ≠ 18 ∧ 20 + i.val ≠ 19 := by omega
    simp [phaseOfNumber, hlt, hge, hne]
  | idle | initial | permuted | preFinal | final | failed => rfl

/-- No two phases share a number: the table can be read backwards. -/
theorem code_injective : Function.Injective Phase.code :=
  Function.LeftInverse.injective (g := fun c : BitVec 6 => phaseOfNumber c.toNat) phaseOfNumber_code

/-- Settles O58: the rows of the table, the bound and the injectivity of the encoding. -/
theorem phaseEncoding : Obligations.PhaseEncoding := by
  have hround : ∀ i : Fin 16, (Phase.code (.round i)).toNat = 19 + (i.val + 1) := fun i => by
    rw [code_round_toNat]; omega
  exact ⟨rfl, code_ks_toNat, rfl, rfl, hround, rfl, rfl, rfl, code_toNat_lt,
    fun _ _ h => code_injective h⟩

end Sys2Proof.Machine
end

section
/-! The list form of `permute` on a sequence and a table of any length (40_bitvector_utilities.md
R110). -/

namespace Sys2Proof.Machine

/-- An entry out of range fails whatever the rest of the table holds. -/
theorem rawPermute_cons_of_le {input : RawBlock} {idx : Nat} (h : input.length ≤ idx)
    (rest : List Nat) : rawPermute input (idx :: rest) = .error .tableIndexOutOfRange := by
  rw [rawPermute, List.getElem?_eq_none h]

/-- An entry in range puts its element in front of what the rest of the table gives, and passes on
the failure of the rest. -/
theorem rawPermute_cons_of_lt {input : RawBlock} {idx : Nat} (h : idx < input.length)
    (rest : List Nat) :
    rawPermute input (idx :: rest) = (rawPermute input rest).map (input.getD idx 0 :: ·) := by
  rw [rawPermute, List.getElem?_eq_getElem h, List.getD_eq_getElem _ _ h]
  cases rawPermute input rest <;> rfl

/-- With every entry in range the result is the gather `input[table[i]]`, in table order. -/
theorem rawPermute_of_forall_lt {input : RawBlock} {table : List Nat}
    (h : ∀ idx ∈ table, idx < input.length) :
    rawPermute input table = .ok (table.map fun idx => input.getD idx 0) := by
  induction table with
  | nil => rfl
  | cons idx rest ih =>
    obtain ⟨hidx, hrest⟩ := List.forall_mem_cons.1 h
    rw [rawPermute_cons_of_lt hidx, ih hrest]
    rfl

/-- One entry out of range, at any place of the table, leaves only the failure. -/
theorem rawPermute_of_exists_le {input : RawBlock} {table : List Nat}
    (h : ∃ idx ∈ table, input.length ≤ idx) :
    rawPermute input table = .error .tableIndexOutOfRange := by
  induction table with
  | nil => simp at h
  | cons idx rest ih =>
    obtain hidx | hidx := Nat.lt_or_ge idx input.length
    · have hrest : ∃ j ∈ rest, input.length ≤ j := by simpa [Nat.not_le.2 hidx] using h
      rw [rawPermute_cons_of_lt hidx, ih hrest]
      rfl
    · exact rawPermute_cons_of_le hidx rest

/-- Settles O35: both clauses by induction on the table; the block returned is the gather, whose
length and elements are those of a `map` over the table. -/
theorem permuteFailsExactlyOutOfRange : Obligations.PermuteFailsExactlyOutOfRange := by
  intro input table
  refine ⟨fun h => ⟨_, rawPermute_of_forall_lt h, List.length_map _, fun i hi => ?_⟩,
    rawPermute_of_exists_le⟩
  rw [List.getD_eq_getElem _ _ (by simpa using hi), List.getElem_map,
    List.getD_eq_getElem table 0 hi]

end Sys2Proof.Machine
end

section
/-! The substitution of the round function, read back chunk by chunk (43_round_function.md R163). -/

namespace Sys2Proof.Machine

/-- The number whose base-16 digits are the first `n` nibbles of `f`, nibble 0 the most
significant. -/
def nibbleNumber (f : Nat → Nibble) (n : Nat) : Nat :=
  (List.range n).foldl (fun acc i => 16 * acc + (f i).toNat) 0

/-- The substitution packs the eight output nibbles. -/
theorem substitute_eq_nibbleNumber (x : RoundKey) :
    substitute x = BitVec.ofNat 32 (nibbleNumber (fun i => sBoxOutput i (chunk x i)) 8) := rfl

/-- A further nibble is appended at the least significant end. -/
theorem nibbleNumber_succ (f : Nat → Nibble) (n : Nat) :
    nibbleNumber f (n + 1) = 16 * nibbleNumber f n + (f n).toNat := by
  simp [nibbleNumber, List.range_succ]

/-- Digit `i` of the packed number, counted from the most significant end, is nibble `i`. -/
theorem nibbleNumber_digit (f : Nat → Nibble) {n i : Nat} (h : i < n) :
    nibbleNumber f n / 16 ^ (n - (i + 1)) % 16 = (f i).toNat := by
  induction n with
  | zero => omega
  | succ n ih =>
    rw [nibbleNumber_succ]
    obtain rfl | hi := Nat.eq_or_lt_of_le (Nat.le_of_lt_succ h)
    · have := (f i).isLt
      rw [Nat.sub_self, Nat.pow_zero, Nat.div_one]
      omega
    · have hdrop : (16 * nibbleNumber f n + (f n).toNat) / 16 = nibbleNumber f n := by
        have := (f n).isLt
        omega
      rw [show n + 1 - (i + 1) = (n - (i + 1)) + 1 by omega, Nat.pow_succ', ← Nat.div_div_eq_div_mul,
        hdrop, ih hi]

/-- Four bits of a 32-bit word at position `4 * i` are hexadecimal digit `i` of its number. -/
theorem toNat_slice_nibble (n : Nat) {i : Nat} (h : i < 8) :
    (slice (BitVec.ofNat 32 n) (4 * i) 4).toNat = n / 16 ^ (8 - (i + 1)) % 16 := by
  have hshift : 2 ^ (32 - (4 * i + 4)) = 16 ^ (8 - (i + 1)) := by
    rw [show 32 - (4 * i + 4) = 4 * (8 - (i + 1)) by omega, Nat.pow_mul]
  have hwidth : 2 ^ 32 = 16 ^ (8 - (i + 1)) * 16 ^ (i + 1) := by
    rw [← Nat.pow_add, show 8 - (i + 1) + (i + 1) = 8 by omega]
    norm_num
  rw [slice, BitVec.extractLsb'_toNat, BitVec.toNat_ofNat, Nat.shiftRight_eq_div_pow, hshift, hwidth,
    Nat.mod_mul_right_div_self]
  exact Nat.mod_mod_of_dvd _ (Dvd.intro_left _ rfl)

/-- Bits `4i` to `4i+3` of the substitution output are the output nibble of chunk `i`. -/
theorem slice_substitute (x : RoundKey) {i : Nat} (h : i < 8) :
    slice (substitute x) (4 * i) 4 = sBoxOutput i (chunk x i) := by
  apply BitVec.eq_of_toNat_eq
  rw [substitute_eq_nibbleNumber, toNat_slice_nibble _ h, nibbleNumber_digit _ h]

/-- Bit `j` of chunk `i` is bit `6i+j` of the 48-bit value. -/
theorem getMsbD_chunk (x : RoundKey) {i j : Nat} (hi : i < 8) (hj : j < 6) :
    (chunk x i).getMsbD j = blockBit x (6 * i + j) :=
  getMsbD_slice x (by omega) hj

/-- Settles O42: nibble `i` of the output is the S-box output of chunk `i`, whose six bits are bits
`6i` to `6i+5` of the operand. -/
theorem substitutionByChunks : Obligations.SubstitutionByChunks := by
  intro x i hi
  rw [slice_substitute x hi, sBoxOutput, sBoxRow, sBoxCol]
  simp [getMsbD_chunk x hi]

end Sys2Proof.Machine
end

section
/-! The first and the last two steps of the block driver, with their frames (44_block_driver.md R179,
R181, R182). -/

namespace Sys2Proof.Machine

/-- What `DRV-IP` writes, in the tables' terms (R172, R179). -/
theorem drvIp_eq (s : State) : s.drvIp = { s with
    L := slice (permute 64 tableIP s.IN) 0 32, R := slice (permute 64 tableIP s.IN) 32 32,
    PH := .permuted } := rfl

/-- What `DRV-PREFINAL` writes (R181). -/
theorem drvPreFinal_eq (s : State) : s.drvPreFinal = { s with PH := .preFinal } := rfl

/-- What `DRV-FINAL` writes, in the tables' terms (R176, R182). -/
theorem drvFinal_eq (s : State) : s.drvFinal = { s with
    OUT := permute 64 tableFP (s.R ++ s.L), STATUS := 1, PH := .final } := rfl

/-- The outputs in `Final`: the core is ready and the response is the status and the result (R32). -/
theorem outputs_of_final {s : State} (h : s.PH = .final) : s.outputs =
    { cmdReady := true, rspValid := true, rspStatus := s.STATUS, rspBlock := s.OUT } := by
  simp [State.outputs, h, Phase.ready, Phase.responds, portOfBlock]

/-- Settles O13: `Initial` is busy, so the step is the enabled `DRV-IP`, whatever is presented. -/
theorem initialPermutationStep : Obligations.InitialPermutationStep := by
  intro s hph hrst
  have hbusy : s.PH.ready = false := by rw [hph]; rfl
  rw [step_of_busy hbusy hrst, internalStep_initial (s := s.advance) hph, drvIp_eq]
  rfl

/-- Settles O15: `Round[16]` enables `DRV-PREFINAL` and `PreFinal` enables `DRV-FINAL`, whose state
shows its result on the ports because its phase is `Final`. -/
theorem finalSteps : Obligations.FinalSteps := by
  refine ⟨fun s hph hrst => ?_, fun s hph hrst => ⟨_, ?_, rfl, outputs_of_final rfl⟩⟩
  · have hbusy : s.PH.ready = false := by rw [hph]; rfl
    rw [step_of_busy hbusy hrst, internalStep_round_last (s := s.advance) hph, drvPreFinal_eq]
    rfl
  · have hbusy : s.PH.ready = false := by rw [hph]; rfl
    rw [step_of_busy hbusy hrst, internalStep_preFinal (s := s.advance) hph, drvFinal_eq]
    rfl

end Sys2Proof.Machine
end

section
/-! `ACCEPT` of each class of opcodes, in the terms of the ports (45_entry_points.md R194, R195, R196). -/

namespace Sys2Proof.Machine

/-! ### Which acceptance the opcode on the ports selects -/

/-- A key-bearing opcode loads the key; `IN` is written exactly when `op[2]` = 1 (R195). -/
theorem accept_decodePorts_of_keyBearing {op : Opcode} (h : op ∈ [0b010#3, 0b110#3, 0b111#3])
    (block key : Block) (s : State) :
    State.accept (decodePorts op block key) s = State.loadKey key
      { State.beginCommand op s with IN := if op.getLsbD 2 then block else s.IN } := by
  simp only [List.mem_cons, List.not_mem_nil, or_false] at h
  obtain rfl | rfl | rfl := h <;> rfl

/-- A block-only opcode needs the stored schedule (R196). -/
theorem accept_decodePorts_of_blockOnly {op : Opcode} (h : op ∈ [0b100#3, 0b101#3])
    (block key : Block) (s : State) :
    State.accept (decodePorts op block key) s = State.acceptBlock op block s := by
  simp only [List.mem_cons, List.not_mem_nil, or_false] at h
  obtain rfl | rfl := h <;> rfl

/-- A reserved opcode reads neither operand port (R194). -/
theorem accept_decodePorts_of_reserved {op : Opcode} (h : op ∈ [0b000#3, 0b001#3, 0b011#3])
    (block key : Block) (s : State) :
    State.accept (decodePorts op block key) s = State.acceptReserved op s := by
  simp only [List.mem_cons, List.not_mem_nil, or_false] at h
  obtain rfl | rfl | rfl := h <;> rfl

/-- `ACCEPT` decodes the opcode and the two operand ports of the present sample. -/
theorem tick_of_accept_ports {s : State} (hr : s.PH.ready = true) (h : s.port.rst = false)
    (hv : s.port.cmdValid = true) :
    s.tick = s.advance.accept (decodePorts s.port.cmdOp s.port.cmdBlock s.port.cmdKey) :=
  tick_of_accept hr h hv

/-! ### A command that is complete in its acceptance -/

/-- Where acceptance alone leads to a ready phase, the step is that acceptance. -/
theorem step_of_accept_ready {s : State} (hr : s.PH.ready = true) (h : s.port.rst = false)
    (hv : s.port.cmdValid = true) (hend : s.tick.PH.ready = true) : step s = .next s.tick := by
  rw [tick_of_accept hr h hv] at hend ⊢
  rw [step_of_command h hv, exec_of_ready _ (by simpa using hr), finish_of_ready hend]

/-- The outputs in `Failed`: the core is ready and the response is the status and the result (R32). -/
theorem outputs_of_failed {s : State} (h : s.PH = .failed) : s.outputs =
    { cmdReady := true, rspValid := true, rspStatus := s.STATUS, rspBlock := s.OUT } := by
  simp [State.outputs, h, Phase.ready, Phase.responds, portOfBlock]

/-! ### The obligations -/

/-- Settles O8: the three writes of every acceptance, then what the key is loaded into. -/
theorem acceptOfKeyBearingCommand : Obligations.AcceptOfKeyBearingCommand := by
  intro s hready hrst hvalid hop
  rw [tick_of_accept_ports hready hrst hvalid, accept_decodePorts_of_keyBearing hop]
  rfl

/-- Settles O9: `KV` decides between the start of the driver and the failure with `NO_KEY`. -/
theorem acceptOfBlockOnlyCommand : Obligations.AcceptOfBlockOnlyCommand := by
  intro s hready hrst hvalid hop
  rw [tick_of_accept_ports hready hrst hvalid, accept_decodePorts_of_blockOnly hop]
  refine ⟨fun hkey => ?_, fun hno => ?_⟩
  · rw [acceptBlock_of_key (s := s.advance) hkey]
    rfl
  · rw [acceptBlock_of_no_key (s := s.advance) hno]
    rfl

/-- Settles O10: the acceptance fails the command with `ILLEGAL_OP`, and `Failed` is a ready phase,
so no step follows it and the response stands on the ports. -/
theorem acceptOfReservedOpcode : Obligations.AcceptOfReservedOpcode := by
  intro s hready hrst hvalid hop
  have htick : s.tick = { s with
      OP := s.port.cmdOp, OUT := 0, STATUS := 6, PH := .failed, inputs := s.inputs.tail } := by
    rw [tick_of_accept_ports hready hrst hvalid, accept_decodePorts_of_reserved hop]
    rfl
  have hfailed : s.tick.PH = .failed := by rw [htick]
  refine ⟨htick, step_of_accept_ready hready hrst hvalid (by rw [hfailed]; rfl), ?_⟩
  rw [outputs_of_failed hfailed, htick]

end Sys2Proof.Machine
end

section
/-! The reset event in every phase (70_reset_and_hazards.md R240). -/

namespace Sys2Proof.Machine

/-- While `rst` is asserted the step is the reset event, whatever the phase and the command ports. -/
theorem step_of_reset {s : State} (h : s.port.rst = true) :
    step s = .next s.advance.resetEvent := by
  simp [step, h]

/-- The step machine's step is then the same reset event. -/
theorem tick_of_reset {s : State} (h : s.port.rst = true) : s.tick = s.advance.resetEvent := by
  simp [State.tick, h]

/-- Settles O2: both forms of the step are the reset event, which writes the reset values and passes
the one sample. -/
theorem resetHasPriorityInEveryPhase : Obligations.ResetHasPriorityInEveryPhase := by
  intro s hrst
  exact ⟨s.advance.resetEvent, step_of_reset hrst, tick_of_reset hrst, resetEvent_PH _,
    resetEvent_KV _, resetEvent_STATUS _, resetEvent_OUT _, resetEvent_OP _, resetEvent_inputs _⟩

end Sys2Proof.Machine
end

section
/-! The invariant of the core (Safety.lean): a lemma that establishes it for each kind of phase, then
every transition by the phase it leads to, and what the host sees of a state that meets it. -/

namespace Sys2Proof.Machine

/-! ### A state of each kind of phase that meets the invariant -/

/-- In `Idle`: the registers that reset defines are clear. -/
theorem inv_of_idle {s : State} (hph : s.PH = .idle) (hkv : s.KV = false)
    (hstatus : s.STATUS = statusNone) (hout : s.OUT = 0) (hop : s.OP = 0b000#3) : s.Inv where
  idle _ := ⟨hkv, hstatus, hout, hop⟩
  busy h := by simp [hph, Phase.ready] at h
  keyed h := by simp [hkv] at h
  keySchedule i h := by simp [hph] at h
  driver h := by simp [hph, Phase.inDriver] at h
  rounds n h := by simp [hph, Phase.roundsDone] at h
  final h := by simp [hph] at h
  failed h := by simp [hph] at h

/-- In `KS(i)`: the key schedule of one key has come to round `i`. -/
theorem inv_of_ks {s : State} {i : Fin 17} {key : Block} (hph : s.PH = .ks i) (hq : s.Quiet)
    (hop : Opcode.keyBearing s.OP = true) (hkv : s.KV = false)
    (hcd : (s.C, s.D) = scheduleState key i.val)
    (hrk : ∀ j : Fin 16, j.val < i.val → readKey s.RK j = scheduledKey key (j.val + 1)) :
    s.Inv where
  idle h := by simp [hph] at h
  busy _ := hq
  keyed h := by simp [hkv] at h
  keySchedule i' h := by
    obtain rfl : i = i' := by simpa [hph] using h
    exact ⟨hop, hkv, key, hcd, hrk⟩
  driver h := by simp [hph, Phase.inDriver] at h
  rounds n h := by simp [hph, Phase.roundsDone] at h
  final h := by simp [hph] at h
  failed h := by simp [hph] at h

/-- In the driver's phases: `RK` is one key's schedule, and `L`, `R` are a Round State of `IN`. -/
theorem inv_of_driver {s : State} {key : Block} (hph : s.PH.inDriver = true) (hq : s.Quiet)
    (hop : s.OP.getLsbD 2 = true) (hkv : s.KV = true) (hrk : s.RK = generateRoundKeys key)
    (hlr : ∀ n, s.PH.roundsDone = some n →
      (s.L, s.R) = roundState s.RK (Opcode.mode s.OP) s.IN n) : s.Inv where
  idle h := by simp [h, Phase.inDriver] at hph
  busy _ := hq
  keyed _ := ⟨key, hrk⟩
  keySchedule i h := by simp [h, Phase.inDriver] at hph
  driver _ := ⟨hop, hkv⟩
  rounds := hlr
  final h := by simp [h, Phase.inDriver] at hph
  failed h := by simp [h, Phase.inDriver] at hph

/-- In `Final`: `OUT` is the command's result. -/
theorem inv_of_final {s : State} {key : Block} (hph : s.PH = .final) (hstatus : s.STATUS = statusOk)
    (hkv : s.KV = true) (hrk : s.RK = generateRoundKeys key)
    (hout : (s.OP = 0b010#3 ∧ s.OUT = 0) ∨
      (s.OP.getLsbD 2 = true ∧ s.OUT = processBlock s.IN s.RK (Opcode.mode s.OP))) : s.Inv where
  idle h := by simp [hph] at h
  busy h := by simp [hph, Phase.ready] at h
  keyed _ := ⟨key, hrk⟩
  keySchedule i h := by simp [hph] at h
  driver h := by simp [hph, Phase.inDriver] at h
  rounds n h := by simp [hph, Phase.roundsDone] at h
  final _ := ⟨hstatus, hkv, hout⟩
  failed h := by simp [hph] at h

/-- In `Failed`: the code is the one that applies. -/
theorem inv_of_failed {s : State} (hph : s.PH = .failed) (hout : s.OUT = 0)
    (hkeyed : s.KV = true → ∃ key, s.RK = generateRoundKeys key)
    (hcode : (s.STATUS = statusIllegalOp ∧ Opcode.reserved s.OP = true) ∨
      (s.STATUS = statusNoKey ∧ Opcode.blockOnly s.OP = true ∧ s.KV = false)) : s.Inv where
  idle h := by simp [hph] at h
  busy h := by simp [hph, Phase.ready] at h
  keyed := hkeyed
  keySchedule i h := by simp [hph] at h
  driver h := by simp [hph, Phase.inDriver] at h
  rounds n h := by simp [hph, Phase.roundsDone] at h
  final h := by simp [hph] at h
  failed _ := ⟨hout, hcode⟩

/-! ### The reset event, the passing of a sample, and acceptance -/

/-- The invariant says nothing of the input history. -/
theorem advance_inv {s : State} (h : s.Inv) : s.advance.Inv where
  idle := h.idle
  busy := h.busy
  keyed := h.keyed
  keySchedule := h.keySchedule
  driver := h.driver
  rounds := h.rounds
  final := h.final
  failed := h.failed

/-- The reset event establishes the invariant, whatever the state was. -/
theorem resetEvent_inv (s : State) : s.resetEvent.Inv :=
  inv_of_idle rfl rfl rfl rfl rfl

/-- `ACCEPT` of a key-bearing opcode starts the schedule of the presented key. -/
theorem loadKey_inv {s : State} (hq : s.Quiet) (hop : Opcode.keyBearing s.OP = true) (key : Block) :
    (State.loadKey key s).Inv :=
  inv_of_ks (key := key) (i := 0) rfl hq hop rfl rfl fun _ hj => absurd hj (Nat.not_lt_zero _)

/-- `ACCEPT` of a block-only opcode starts the driver or fails with `NO_KEY`. -/
theorem acceptBlock_inv {s : State} (h : s.Inv) {op : Opcode} (hop : Opcode.blockOnly op = true)
    (hblk : op.getLsbD 2 = true) (block : Block) : (State.acceptBlock op block s).Inv := by
  cases hkv : s.KV with
  | true =>
    obtain ⟨key, hrk⟩ := h.keyed hkv
    rw [acceptBlock_of_key hkv]
    exact inv_of_driver rfl ⟨rfl, rfl⟩ hblk hkv hrk fun n hn => by simp [Phase.roundsDone] at hn
  | false =>
    rw [acceptBlock_of_no_key hkv]
    exact inv_of_failed rfl rfl h.keyed (.inr ⟨rfl, hop, hkv⟩)

/-- `ACCEPT` of a reserved opcode fails with `ILLEGAL_OP`. -/
theorem acceptReserved_inv {s : State} (h : s.Inv) {op : Opcode} (hop : Opcode.reserved op = true) :
    (State.acceptReserved op s).Inv :=
  inv_of_failed rfl rfl h.keyed (.inl ⟨rfl, hop⟩)

/-- Every acceptance keeps the invariant. -/
theorem accept_inv {s : State} (h : s.Inv) (i : Instr) : (s.accept i).Inv := by
  cases i with
  | keygen key => exact loadKey_inv (s := s.beginCommand _) ⟨rfl, rfl⟩ rfl key
  | encrypt block key =>
    exact loadKey_inv (s := { s.beginCommand _ with IN := block }) ⟨rfl, rfl⟩ rfl key
  | decrypt block key =>
    exact loadKey_inv (s := { s.beginCommand _ with IN := block }) ⟨rfl, rfl⟩ rfl key
  | encblk block | decblk block => exact acceptBlock_inv h rfl rfl block
  | reserved000 | reserved001 | reserved011 => exact acceptReserved_inv h rfl

/-! ### The internal steps -/

/-- A key-bearing opcode without the block bit is `KEYGEN`. -/
theorem keyBearing_of_not_blk {op : Opcode} (h : Opcode.keyBearing op = true)
    (hblk : op.getLsbD 2 = false) : op = 0b010#3 := by
  revert op
  decide

/-- A store whose sixteen entries are the scheduled ones is the whole schedule. -/
theorem eq_generateRoundKeys {rk : RoundKeys} {key : Block}
    (h : ∀ j : Fin 16, readKey rk j = scheduledKey key (j.val + 1)) : rk = generateRoundKeys key := by
  ext j hj : 1
  simpa [readKey, generateRoundKeys] using h ⟨j, hj⟩

/-- `KS-ROUND(i+1)` rotates both halves (R146). -/
@[simp] theorem ksRound_C (i : Fin 16) (s : State) :
    (s.ksRound i).C = rotateLeft s.C (shiftAmount i) := rfl

@[simp] theorem ksRound_D (i : Fin 16) (s : State) :
    (s.ksRound i).D = rotateLeft s.D (shiftAmount i) := rfl

/-- It writes entry `i` of the store, from the new halves. -/
@[simp] theorem ksRound_RK (i : Fin 16) (s : State) :
    (s.ksRound i).RK = s.RK.set i (roundKeyOf (s.ksRound i).C (s.ksRound i).D) := rfl

@[simp] theorem ksRound_PH (i : Fin 16) (s : State) : (s.ksRound i).PH = .ks i.succ := rfl

/-- The store after the round, entry by entry. -/
theorem readKey_ksRound (i j : Fin 16) (s : State) : readKey (s.ksRound i).RK j =
    if j = i then roundKeyOf (s.ksRound i).C (s.ksRound i).D else readKey s.RK j := by
  by_cases h : j = i
  · subst h
    simp [readKey]
  · have hne : i.val ≠ j.val := fun e => h (Fin.ext e.symm)
    simp [readKey, h, hne]

/-- `KS-ROUND(i+1)` takes the schedule one round further (R146). -/
theorem ksRound_inv {s : State} {i : Fin 16} (h : s.Inv) (hph : s.PH = .ks i.castSucc) :
    (s.ksRound i).Inv := by
  obtain ⟨hop, hkv, key, hcd, hrk⟩ := h.keySchedule _ hph
  have hq : s.Quiet := h.busy (by rw [hph]; rfl)
  have hcd' : ((s.ksRound i).C, (s.ksRound i).D) = scheduleState key (i.val + 1) := by
    obtain ⟨hc, hd⟩ := Prod.ext_iff.1 hcd
    rw [ksRound_C, ksRound_D, show s.C = _ from hc, show s.D = _ from hd]
    rfl
  refine inv_of_ks (key := key) (i := i.succ) rfl hq hop hkv hcd' fun j hj => ?_
  rw [readKey_ksRound]
  split
  case isTrue hji => rw [hji, scheduledKey, ← hcd']
  case isFalse hji =>
    have hlt : j.val < i.val := by
      have hne : j.val ≠ i.val := fun e => hji (Fin.ext e)
      have hle : j.val < i.val + 1 := hj
      omega
    exact hrk j hlt

/-- `KS-DONE` publishes the complete schedule (R147). -/
theorem ksDone_inv {s : State} (h : s.Inv) (hph : s.PH = .ks (Fin.last 16)) : s.ksDone.Inv := by
  obtain ⟨hop, -, key, -, hrk⟩ := h.keySchedule _ hph
  obtain ⟨hstatus, hout⟩ := h.busy (by rw [hph]; rfl)
  have hall : s.RK = generateRoundKeys key := eq_generateRoundKeys fun j => hrk j j.isLt
  cases hblk : s.OP.getLsbD 2 with
  | true =>
    rw [ksDone_of_blk hblk]
    exact inv_of_driver rfl ⟨hstatus, hout⟩ hblk rfl hall
      fun n hn => by simp [Phase.roundsDone] at hn
  | false =>
    rw [ksDone_of_not_blk hblk]
    exact inv_of_final rfl rfl rfl hall (.inl ⟨keyBearing_of_not_blk hop hblk, hout⟩)

/-- `DRV-IP` writes (L_0, R_0) (R179). -/
theorem drvIp_inv {s : State} (h : s.Inv) (hph : s.PH = .initial) : s.drvIp.Inv := by
  obtain ⟨hop, hkv⟩ := h.driver (by rw [hph]; rfl)
  obtain ⟨key, hrk⟩ := h.keyed hkv
  refine inv_of_driver rfl (h.busy (by rw [hph]; rfl)) hop hkv hrk fun n hn => ?_
  obtain rfl : 0 = n := by simpa [State.drvIp, Phase.roundsDone] using hn
  rfl

/-- A Feistel round on the Round State after `i` rounds gives the one after `i + 1` (R174, R180). -/
theorem drvRound_halves {s : State} {i : Fin 16}
    (hlr : (s.L, s.R) = roundState s.RK (Opcode.mode s.OP) s.IN i.val) :
    ((s.drvRound i).L, (s.drvRound i).R) =
      roundState s.RK (Opcode.mode s.OP) s.IN (i.val + 1) := by
  rw [roundState, ← hlr, Fin.ofNat_val_eq_self]
  rfl

/-- The driver's phases are busy. -/
theorem ready_of_inDriver {p : Phase} (h : p.inDriver = true) : p.ready = false := by
  cases p with
  | initial | permuted | round | preFinal => rfl
  | idle | ks | final | failed => simp [Phase.inDriver] at h

/-- `DRV-ROUND(i+1)` takes the Round State one round further (R180). -/
theorem drvRound_inv {s : State} {i : Fin 16} (h : s.Inv) (hph : s.PH.inDriver = true)
    (hdone : s.PH.roundsDone = some i.val) : (s.drvRound i).Inv := by
  obtain ⟨hop, hkv⟩ := h.driver hph
  obtain ⟨key, hrk⟩ := h.keyed hkv
  refine inv_of_driver rfl (h.busy (ready_of_inDriver hph)) hop hkv hrk fun n hn => ?_
  obtain rfl : i.val + 1 = n := by simpa [State.drvRound, Phase.roundsDone] using hn
  exact drvRound_halves (h.rounds _ hdone)

/-- `DRV-PREFINAL` keeps the Round State after round 16 (R181). -/
theorem drvPreFinal_inv {s : State} (h : s.Inv) (hph : s.PH = .round (Fin.last 15)) :
    s.drvPreFinal.Inv := by
  obtain ⟨hop, hkv⟩ := h.driver (by rw [hph]; rfl)
  obtain ⟨key, hrk⟩ := h.keyed hkv
  refine inv_of_driver rfl (h.busy (by rw [hph]; rfl)) hop hkv hrk fun n hn => ?_
  obtain rfl : 16 = n := by simpa [State.drvPreFinal, Phase.roundsDone] using hn
  exact h.rounds 16 (by rw [hph]; rfl)

/-- `DRV-FINAL` writes the processed block (R182). -/
theorem drvFinal_inv {s : State} (h : s.Inv) (hph : s.PH = .preFinal) : s.drvFinal.Inv := by
  obtain ⟨hop, hkv⟩ := h.driver (by rw [hph]; rfl)
  obtain ⟨key, hrk⟩ := h.keyed hkv
  have hout : finalPermutation (s.R ++ s.L) = processBlock s.IN s.RK (Opcode.mode s.OP) := by
    rw [processBlock, ← h.rounds 16 (by rw [hph]; rfl), preFinalBlock]
  exact inv_of_final rfl rfl hkv hrk (.inr ⟨hop, hout⟩)

/-- Everything an internal step can do, by the phase that enables it (R186). -/
theorem internalStep_cases (p : Phase) :
    (p.ready = true ∧ ∀ s : State, s.PH = p → s.internalStep = s) ∨
    (∃ i : Fin 16, p = .ks i.castSucc ∧ ∀ s : State, s.PH = p → s.internalStep = s.ksRound i) ∨
    (p = .ks (Fin.last 16) ∧ ∀ s : State, s.PH = p → s.internalStep = s.ksDone) ∨
    (p = .initial ∧ ∀ s : State, s.PH = p → s.internalStep = s.drvIp) ∨
    (∃ i : Fin 16, (p.inDriver = true ∧ p.roundsDone = some i.val) ∧
      ∀ s : State, s.PH = p → s.internalStep = s.drvRound i) ∨
    (p = .round (Fin.last 15) ∧ ∀ s : State, s.PH = p → s.internalStep = s.drvPreFinal) ∨
    (p = .preFinal ∧ ∀ s : State, s.PH = p → s.internalStep = s.drvFinal) := by
  cases p with
  | idle | final | failed => exact .inl ⟨rfl, fun s h => internalStep_ready (by rw [h]; rfl)⟩
  | ks i =>
    cases i using Fin.lastCases with
    | cast i => exact .inr (.inl ⟨i, rfl, fun _ => internalStep_ks⟩)
    | last => exact .inr (.inr (.inl ⟨rfl, fun _ => internalStep_ks_last⟩))
  | initial => exact .inr (.inr (.inr (.inl ⟨rfl, fun _ => internalStep_initial⟩)))
  | permuted =>
    exact .inr (.inr (.inr (.inr (.inl ⟨0, ⟨rfl, rfl⟩, fun _ => internalStep_permuted⟩))))
  | round i =>
    by_cases hi : i.val + 1 < 16
    · exact .inr (.inr (.inr (.inr (.inl
        ⟨⟨i.val + 1, hi⟩, ⟨rfl, rfl⟩, fun _ h => internalStep_round h hi⟩))))
    · obtain rfl : i = Fin.last 15 := by ext; simp; omega
      exact .inr (.inr (.inr (.inr (.inr (.inl ⟨rfl, fun _ => internalStep_round_last⟩)))))
  | preFinal => exact .inr (.inr (.inr (.inr (.inr (.inr ⟨rfl, fun _ => internalStep_preFinal⟩)))))

/-- The internal step of every phase keeps the invariant. -/
theorem internalStep_inv {s : State} (h : s.Inv) : s.internalStep.Inv := by
  obtain ⟨-, hs⟩ | ⟨i, hph, hs⟩ | ⟨hph, hs⟩ | ⟨hph, hs⟩ | ⟨i, ⟨hph, hdone⟩, hs⟩ | ⟨hph, hs⟩ |
    ⟨hph, hs⟩ := internalStep_cases s.PH <;> rw [hs s rfl]
  · exact h
  · exact ksRound_inv h hph
  · exact ksDone_inv h hph
  · exact drvIp_inv h hph
  · exact drvRound_inv h hph hdone
  · exact drvPreFinal_inv h hph
  · exact drvFinal_inv h hph

/-! ### Runs of steps -/

/-- A step of a core with a command in progress, interrupted or not, keeps the invariant. -/
theorem busyTick_inv {s : State} (h : s.Inv) : s.busyTick.Inv := by
  cases hr : s.port.rst with
  | true => rw [busyTick_of_reset hr]; exact resetEvent_inv _
  | false => rw [busyTick_of_no_reset hr]; exact internalStep_inv (advance_inv h)

/-- A property that every step of a busy core keeps holds where finishing ends. -/
theorem finish_induction {P : State → Prop}
    (hstep : ∀ s : State, s.PH.ready = false → P s → P s.busyTick) {s : State} (h : P s) (n : Nat) :
    P (State.finish n s) := by
  induction n generalizing s with
  | zero => exact h
  | succ n ih =>
    cases hp : s.PH.ready with
    | true => rwa [finish_of_ready hp]
    | false => rw [finish_of_busy hp]; exact ih (hstep s hp h)

/-- The steps of a command up to the next ready phase keep the invariant. -/
theorem finish_inv {s : State} (h : s.Inv) (n : Nat) : (State.finish n s).Inv :=
  finish_induction (P := State.Inv) (fun _ _ => busyTick_inv) h n

/-! ### The obligations -/

/-- Settles O31: of the four things a step can do, a command is an acceptance and a run of internal
steps, and each of the others keeps the invariant by itself. -/
theorem stepKeepsInvariant : Obligations.StepKeepsInvariant := by
  intro s t hinv hstep
  have hadv := advance_inv hinv
  obtain ⟨-, rfl⟩ | ⟨-, -, -, rfl⟩ | ⟨-, -, -, rfl⟩ | ⟨-, -, rfl⟩ := step_cases hstep
  · exact resetEvent_inv _
  · exact finish_inv (accept_inv hadv _) _
  · exact hadv
  · exact internalStep_inv hadv

/-- Settles O32: the same four things, with an acceptance alone in place of the whole command. -/
theorem tickKeepsInvariant : Obligations.TickKeepsInvariant := by
  intro s hinv
  have hadv := advance_inv hinv
  obtain ⟨-, ht⟩ | ⟨-, -, -, ht⟩ | ⟨-, -, -, ht⟩ | ⟨-, -, ht⟩ := tick_cases s <;> rw [ht]
  · exact resetEvent_inv _
  · exact accept_inv hadv _
  · exact hadv
  · exact internalStep_inv hadv

/-- Settles O30: the registers that reset defines are the clear ones of `Idle`. -/
theorem resetStateMeetsInvariant : Obligations.ResetStateMeetsInvariant :=
  fun _ => inv_of_idle rfl rfl rfl rfl rfl

/-- A busy phase has no response on the ports. -/
theorem responds_of_busy {p : Phase} (h : p.ready = false) : p.responds = false := by
  cases p with
  | idle | ks | initial | permuted | round | preFinal => rfl
  | final | failed => simp [Phase.ready] at h

/-- The outputs of a busy core while `STATUS` and `OUT` are clear: nothing (R32). -/
theorem outputs_of_busy {s : State} (hbusy : s.PH.ready = false) (hq : s.Quiet) : s.outputs =
    { cmdReady := false, rspValid := false, rspStatus := 0, rspBlock := 0 } := by
  obtain ⟨hstatus, hout⟩ := hq
  simp [State.outputs, hbusy, responds_of_busy hbusy, hstatus, hout, portOfBlock]

/-- Settles O33: the outputs are functions of `PH`, `STATUS` and `OUT`, which the invariant fixes for
each kind of phase. -/
theorem outputsShowNothingInProgress : Obligations.OutputsShowNothingInProgress := by
  intro s h
  refine ⟨fun hbusy => outputs_of_busy hbusy (h.busy hbusy), fun hph => ?_, fun hph => ?_,
    fun hph => ?_⟩
  · obtain ⟨-, hstatus, hout, -⟩ := h.idle hph
    exact outputs_of_idle hph hstatus hout
  · obtain ⟨hstatus, -⟩ := h.final hph
    rw [outputs_of_final hph, hstatus]
    rfl
  · obtain ⟨hout, hcode⟩ := h.failed hph
    rw [outputs_of_failed hph, hout]
    obtain ⟨hstatus, -⟩ | ⟨hstatus, -⟩ := hcode
    · exact ⟨6, .inl rfl, by rw [hstatus]; rfl⟩
    · exact ⟨7, .inr rfl, by rw [hstatus]; rfl⟩

end Sys2Proof.Machine
end

section
/-! The command word and the ports: encoding and decoding (30_encoding.md R90 to R94), and the bit order
of the operand and response ports (20_memory.md R62). -/

namespace Sys2Proof.Machine

/-! ### The command word -/

/-- Decoding a command word's number reads the word. -/
theorem decode_toNat (w : CommandWord) : decode w.toNat = .ok (decodeWord w) := by
  rw [decode, if_pos w.isLt, BitVec.ofNat_toNat, BitVec.setWidth_eq]

/-- The word of a command carries its opcode and operands, which decode to the command. -/
theorem decodeWord_encode (i : Instr) : decodeWord (encode i) = i := by
  obtain ⟨hop, hblock, hkey⟩ := Laws.EncodedFields.of_concatenation i
  rw [decodeWord, hop, hblock, hkey, decodePorts_self]

/-- Settles O54: the number of the word is below `2^131`, and each of the word's three fields is the
command's own. -/
theorem decodeOfEncode : Obligations.DecodeOfEncode := by
  intro i
  rw [decode_toNat, decodeWord_encode]

/-- Settles O56: each word by its three fields, and the last number by its bit 131. -/
theorem wordsDecodeAsWritten : Obligations.WordsDecodeAsWritten :=
  ⟨rfl, rfl, rfl, rfl, rfl, rfl, rfl, rfl, rfl, rfl, rfl⟩

/-! ### What the decoder keeps of the ports -/

/-- The opcodes that use the block port (R92). -/
def blockOpcodes : List Opcode := [0b100#3, 0b101#3, 0b110#3, 0b111#3]

/-- The opcodes that use the key port (R92). -/
def keyOpcodes : List Opcode := [0b010#3, 0b110#3, 0b111#3]

/-- The decoded command has the opcode that is presented. -/
theorem opcode_decodePorts (op : Opcode) (block key : Block) :
    (decodePorts op block key).opcode = op := by
  induction op using forall_opcode with
  | h n => fin_cases n <;> rfl

/-- It has the block that is presented exactly where the opcode uses it. -/
theorem blockOperand_decodePorts (op : Opcode) (block key : Block) :
    (decodePorts op block key).blockOperand = if op ∈ blockOpcodes then block else 0 := by
  induction op using forall_opcode with
  | h n => fin_cases n <;> rfl

/-- It has the key that is presented exactly where the opcode uses it. -/
theorem keyOperand_decodePorts (op : Opcode) (block key : Block) :
    (decodePorts op block key).keyOperand = if op ∈ keyOpcodes then key else 0 := by
  induction op using forall_opcode with
  | h n => fin_cases n <;> rfl

/-- A command is its opcode and its operands. -/
theorem instr_ext {i j : Instr} (hop : i.opcode = j.opcode) (hblock : i.blockOperand = j.blockOperand)
    (hkey : i.keyOperand = j.keyOperand) : i = j := by
  rw [← decodePorts_self i, hop, hblock, hkey, decodePorts_self]

/-- An unused operand is dropped (R94). -/
theorem decodePorts_congr {op : Opcode} {block block' key key' : Block}
    (hblock : op ∈ blockOpcodes → block = block') (hkey : op ∈ keyOpcodes → key = key') :
    decodePorts op block key = decodePorts op block' key' := by
  apply instr_ext
  · rw [opcode_decodePorts, opcode_decodePorts]
  · rw [blockOperand_decodePorts, blockOperand_decodePorts]
    exact ite_congr rfl hblock fun _ => rfl
  · rw [keyOperand_decodePorts, keyOperand_decodePorts]
    exact ite_congr rfl hkey fun _ => rfl

/-- Settles O55: the decoded command determines the opcode and the used operands, and is determined
by them. -/
theorem decodingSeparatesCommands : Obligations.DecodingSeparatesCommands := by
  intro op op' block block' key key'
  refine ⟨fun h => ?_, fun ⟨hop, hblock, hkey⟩ => hop ▸ decodePorts_congr hblock hkey⟩
  obtain rfl : op = op' := by
    simpa only [opcode_decodePorts] using congrArg Instr.opcode h
  have hblocks := congrArg Instr.blockOperand h
  have hkeys := congrArg Instr.keyOperand h
  rw [blockOperand_decodePorts, blockOperand_decodePorts] at hblocks
  rw [keyOperand_decodePorts, keyOperand_decodePorts] at hkeys
  refine ⟨rfl, fun hmem => ?_, fun hmem => ?_⟩
  · rwa [if_pos (show op ∈ blockOpcodes from hmem), if_pos (show op ∈ blockOpcodes from hmem)]
      at hblocks
  · rwa [if_pos (show op ∈ keyOpcodes from hmem), if_pos (show op ∈ keyOpcodes from hmem)] at hkeys

/-! ### The ports -/

/-- Block bit `i` of a 64-bit word is port bit `63 - i` (R62). -/
theorem blockBit_eq_portBit (p : BitVec 64) {i : Nat} (h : i < 64) :
    blockBit p i = portBit p (63 - i) := by
  rw [blockBit, portBit, BitVec.getMsbD_eq_getLsbD, decide_eq_true h, Bool.true_and]

/-- Settles O57: the operand ports and `rsp_block` carry the block's own number. -/
theorem portBitOrder : Obligations.PortBitOrder :=
  ⟨fun p _ h => blockBit_eq_portBit p h, fun s _ h => (blockBit_eq_portBit s.OUT h).symm⟩

end Sys2Proof.Machine
end

section
/-! A single step in the terms of the ports and of the tables: which command it runs, what it ignores,
and the internal steps of the key schedule and of the Feistel rounds with their frames. -/

namespace Sys2Proof.Machine

/-! ### The present sample -/

@[simp] theorem port_withSample (p : PortSample) (s : State) : (s.withSample p).port = p := rfl

/-- Once it has passed, the sample has left nothing behind. -/
@[simp] theorem advance_withSample (p : PortSample) (s : State) :
    (s.withSample p).advance = s.advance := rfl

/-- The first of the samples to come is on the ports. -/
theorem port_of_inputs {s : State} {p : PortSample} {rest : List PortSample}
    (h : s.inputs = p :: rest) : s.port = p := by
  simp [State.port, h]

/-- The step without a reset and without a command is the enabled internal step. -/
theorem step_of_no_command {s : State} (hrst : s.port.rst = false)
    (hvalid : s.port.cmdValid = false) : step s = .next s.advance.internalStep := by
  simp [step, hrst, hvalid]

/-! ### Which command a step runs -/

/-- Settles O4: the command is decoded from the present sample, and a sample made of a command's own
opcode and operands decodes to that command. -/
theorem stepRunsPresentedCommand : Obligations.StepRunsPresentedCommand := by
  refine ⟨fun s hrst hvalid => step_of_command hrst hvalid, fun i s rest h => ?_⟩
  have hport : s.port = PortSample.present i := port_of_inputs h
  have hadvance : s.advance = { s with inputs := rest } := by simp [State.advance, h]
  rw [step_of_command (by rw [hport]; rfl) (by rw [hport]; rfl), hport, command_present, hadvance]

/-- Settles O5: a ready phase enables no internal step, and the outputs are functions of registers
that the step leaves alone. -/
theorem readyCoreKeepsResponse : Obligations.ReadyCoreKeepsResponse := by
  intro s hready hrst hvalid
  refine ⟨?_, rfl⟩
  rw [step_of_no_command hrst hvalid, internalStep_ready (s := s.advance) hready]
  rfl

/-- Settles O6: a busy core's step is its internal step once the sample has passed, whichever sample
that was; the step machine's step and `exec` of a waiting command are the same internal step. -/
theorem busyCoreDoesNotAccept : Obligations.BusyCoreDoesNotAccept := by
  intro s p q hbusy hp hq
  have hstep : ∀ r : PortSample, r.rst = false →
      step (s.withSample r) = .next s.advance.internalStep :=
    fun r hr => step_of_busy (s := s.withSample r) hbusy hr
  have htick : (s.withSample p).tick = s.advance.internalStep := by
    rw [tick_of_busy (s := s.withSample p) hbusy, busyTick_of_no_reset (s := s.withSample p) hp,
      advance_withSample]
  refine ⟨?_, ?_, fun i => exec_of_busy i hbusy⟩
  · rw [hstep p hp, hstep q hq]
  · rw [hstep p hp, htick]

/-- Settles O7: a step reads the operand ports through the decoder alone, which drops an unused
operand. -/
theorem unusedOperandsHaveNoEffect : Obligations.UnusedOperandsHaveNoEffect := by
  intro s p q hrst hvalid hop hblock hkey
  have hcommand : p.command = q.command := by
    rw [PortSample.command, PortSample.command, ← hop]
    exact decodePorts_congr hblock hkey
  cases hr : q.rst with
  | true =>
    rw [step_of_reset (s := s.withSample p) (hrst.trans hr), step_of_reset (s := s.withSample q) hr]
    rfl
  | false =>
    cases hv : q.cmdValid with
    | true =>
      rw [step_of_command (s := s.withSample p) (hrst.trans hr) (hvalid.trans hv),
        step_of_command (s := s.withSample q) hr hv, port_withSample, hcommand]
      rfl
    | false =>
      rw [step_of_no_command (s := s.withSample p) (hrst.trans hr) (hvalid.trans hv),
        step_of_no_command (s := s.withSample q) hr hv]
      rfl

/-! ### The steps of the key schedule -/

/-- Settles O11: `KS(i)` is busy and enables `KS-ROUND(i+1)`. -/
theorem keyScheduleRoundStep : Obligations.KeyScheduleRoundStep := by
  intro s i hph hrst
  have hbusy : s.PH.ready = false := by rw [hph]; rfl
  rw [step_of_busy hbusy hrst, internalStep_ks (s := s.advance) hph]
  rfl

/-- Settles O12: `KS(16)` is busy and enables `KS-DONE`, whose successor `OP[2]` decides. -/
theorem keyScheduleDoneStep : Obligations.KeyScheduleDoneStep := by
  intro s hph hrst
  have hbusy : s.PH.ready = false := by rw [hph]; rfl
  rw [step_of_busy hbusy hrst, internalStep_ks_last (s := s.advance) hph]
  refine ⟨fun hblk => ?_, fun hblk => ?_⟩
  · rw [ksDone_of_blk (s := s.advance) hblk]
    rfl
  · rw [ksDone_of_not_blk (s := s.advance) hblk]
    rfl

/-! ### The Feistel rounds -/

/-- Before round `i + 1` the phase is `Permuted` or `Round[i]`, and it enables `DRV-ROUND(i+1)`. -/
theorem internalStep_drvRound {s : State} {i : Fin 16}
    (h : s.PH = if i.val = 0 then Phase.permuted else Phase.round (Fin.ofNat 16 (i.val - 1))) :
    s.internalStep = s.drvRound i := by
  by_cases hi : i.val = 0
  · obtain rfl : i = 0 := Fin.ext hi
    exact internalStep_permuted (by simpa using h)
  · have hval : (Fin.ofNat 16 (i.val - 1)).val + 1 = i.val := by simp; omega
    rw [internalStep_round (by simpa [hi] using h) (hval ▸ i.isLt)]
    exact congrArg (State.drvRound · s) (Fin.ext hval)

/-- A phase before a Feistel round is busy. -/
theorem busy_before_drvRound {s : State} {i : Fin 16}
    (h : s.PH = if i.val = 0 then Phase.permuted else Phase.round (Fin.ofNat 16 (i.val - 1))) :
    s.PH.ready = false := by
  rw [h]
  split <;> rfl

/-- `Opcode.mode` reads `op[0]` (R91). -/
theorem mode_of_bit {op : Opcode} {b : Bool} (h : op.getLsbD 0 = b) :
    Opcode.mode op = if b then .decrypt else .encrypt := by
  rw [Opcode.mode, h]

/-- The decryption reads entry `15 - i` of the store in round `i + 1` (R173). -/
theorem keyIndex_decrypt (i : Fin 16) : keyIndex .decrypt i = Fin.ofNat 16 (15 - i.val) := by
  ext
  simp [keyIndex]
  omega

/-- Settles O14: the phase enables `DRV-ROUND(i+1)`, and `OP[0]` decides the order of the keys. -/
theorem feistelRoundStep : Obligations.FeistelRoundStep := by
  intro s i hph hrst
  rw [step_of_busy (busy_before_drvRound hph) hrst, internalStep_drvRound (s := s.advance) hph,
    State.drvRound]
  refine ⟨fun hmode => ?_, fun hmode => ?_⟩
  · rw [mode_of_bit (op := s.advance.OP) hmode]
    rfl
  · rw [mode_of_bit (op := s.advance.OP) hmode, if_pos rfl, keyIndex_decrypt]
    rfl

end Sys2Proof.Machine
end

section
/-! The commands as a whole: what each leaves in every register when it completes or fails
(42_key_schedule.md R148, 44_block_driver.md R183, R184, 45_entry_points.md R194 to R201). -/

namespace Sys2Proof.Machine

/-! ### From acceptance to the next ready phase -/

/-- A key schedule that ends the command (R148). -/
theorem finish_acceptKey {s : State} {op : Opcode} (hop : op.getLsbD 2 = false) (key : Block)
    (hr : s.noResetFor 17 = true) :
    State.finish maxInternalSteps (State.acceptKey op key s) = { s with
      RK := generateRoundKeys key, KV := true, OP := op, OUT := 0, STATUS := statusOk, PH := .final,
      C := (scheduleState key 16).1, D := (scheduleState key 16).2, inputs := s.inputs.drop 17 } := by
  have hrun := finish_schedule (s := State.acceptKey op key s) (key := key) rfl rfl rfl hr 19
  rw [show maxInternalSteps = 17 + 19 from rfl, hrun, ksDone_of_not_blk hop, finish_of_ready rfl]
  rfl

/-- A block operation with the stored schedule (R183, R184): the opcode decides the mode. -/
theorem finish_acceptBlock {s : State} (hkv : s.KV = true) (op : Opcode) (block : Block)
    (hr : s.noResetFor 19 = true) :
    State.finish maxInternalSteps (State.acceptBlock op block s) = { s with
      OP := op, IN := block, OUT := processBlock block s.RK (Opcode.mode op), STATUS := statusOk,
      PH := .final, L := (roundState s.RK (Opcode.mode op) block 16).1,
      R := (roundState s.RK (Opcode.mode op) block 16).2, inputs := s.inputs.drop 19 } := by
  have hrun := finish_driver (n := maxInternalSteps)
    (s := State.enter .initial { State.beginCommand op s with IN := block }) rfl hr (by decide)
  rw [acceptBlock_of_key hkv, hrun]
  rfl

/-- A block operation without a stored schedule is over at once (R196). -/
theorem finish_acceptBlock_of_no_key {s : State} (hkv : s.KV = false) (op : Opcode) (block : Block)
    (n : Nat) : State.finish n (State.acceptBlock op block s) =
      { s with OP := op, OUT := 0, STATUS := statusNoKey, PH := .failed } := by
  rw [acceptBlock_of_no_key hkv, finish_of_ready rfl]
  rfl

/-- A reserved opcode is over at once (R194). -/
theorem finish_acceptReserved (op : Opcode) (s : State) (n : Nat) :
    State.finish n (State.acceptReserved op s) =
      { s with OP := op, OUT := 0, STATUS := statusIllegalOp, PH := .failed } := by
  rw [finish_of_ready rfl]
  rfl

/-- A key schedule with a block operation under it (R197, R198). -/
theorem finish_acceptKeyAndBlock {s : State} {op : Opcode} (hop : op.getLsbD 2 = true)
    (block key : Block) (hr : s.noResetFor 36 = true) :
    State.finish maxInternalSteps (State.acceptKeyAndBlock op block key s) = { s with
      RK := generateRoundKeys key, KV := true, OP := op, IN := block,
      OUT := processBlock block (generateRoundKeys key) (Opcode.mode op), STATUS := statusOk,
      PH := .final, C := (scheduleState key 16).1, D := (scheduleState key 16).2,
      L := (roundState (generateRoundKeys key) (Opcode.mode op) block 16).1,
      R := (roundState (generateRoundKeys key) (Opcode.mode op) block 16).2,
      inputs := s.inputs.drop 36 } := by
  have hr17 : s.noResetFor 17 = true := noResetFor_mono hr (by decide)
  have hrun := finish_schedule (s := State.acceptKeyAndBlock op block key s) (key := key)
    rfl rfl rfl hr17 19
  have hr19 : (State.enter .initial (State.setKeyValid true
      (State.scheduled key (State.acceptKeyAndBlock op block key s)))).noResetFor 19 = true :=
    noResetFor_drop (m := 17) hr rfl
  have hdrop : (s.inputs.drop 17).drop 19 = s.inputs.drop 36 := List.drop_drop
  rw [show maxInternalSteps = 17 + 19 from rfl, hrun, ksDone_of_blk hop,
    finish_driver rfl hr19 (Nat.le_refl 19), ← hdrop]
  rfl

/-! ### The commands -/

/-- Settles O16: acceptance, then a key schedule that ends the command. -/
theorem keygenCompletes : Obligations.KeygenCompletes := by
  intro key s hready hr
  rw [exec_of_ready _ hready]
  exact congrArg _ (finish_acceptKey rfl key hr)

/-- Settles O17: acceptance, then the driver in the mode of the opcode `100`. -/
theorem encblkCompletes : Obligations.EncblkCompletes := by
  intro block s hready hkv hr
  rw [exec_of_ready _ hready]
  exact congrArg _ (finish_acceptBlock hkv _ block hr)

/-- Settles O18: acceptance, then the driver in the mode of the opcode `101`. -/
theorem decblkCompletes : Obligations.DecblkCompletes := by
  intro block s hready hkv hr
  rw [exec_of_ready _ hready]
  exact congrArg _ (finish_acceptBlock hkv _ block hr)

/-- Settles O20: acceptance, a key schedule, then the driver in the mode of the opcode `110`. -/
theorem encryptCompletes : Obligations.EncryptCompletes := by
  intro block key s hready hr
  rw [exec_of_ready _ hready]
  exact congrArg _ (finish_acceptKeyAndBlock rfl block key hr)

/-- Settles O21: acceptance, a key schedule, then the driver in the mode of the opcode `111`. -/
theorem decryptCompletes : Obligations.DecryptCompletes := by
  intro block key s hready hr
  rw [exec_of_ready _ hready]
  exact congrArg _ (finish_acceptKeyAndBlock rfl block key hr)

/-- Settles O19: both commands fail in their acceptance. -/
theorem blockCommandsWithoutKeyFail : Obligations.BlockCommandsWithoutKeyFail := by
  intro block s hready hkv
  rw [exec_of_ready _ hready, exec_of_ready _ hready]
  exact ⟨congrArg _ (finish_acceptBlock_of_no_key hkv _ block _),
    congrArg _ (finish_acceptBlock_of_no_key hkv _ block _)⟩

/-- Settles O22: each of the three commands fails in its acceptance. -/
theorem reservedCommandsFail : Obligations.ReservedCommandsFail := by
  intro s hready
  rw [exec_of_ready _ hready, exec_of_ready _ hready, exec_of_ready _ hready]
  exact ⟨congrArg _ (finish_acceptReserved _ s _), congrArg _ (finish_acceptReserved _ s _),
    congrArg _ (finish_acceptReserved _ s _)⟩

/-! ### Commands compared -/

/-- Settles O41: the store that `KEYGEN` leaves is a function of the key alone. -/
theorem keyScheduleIsDeterministic : Obligations.KeyScheduleIsDeterministic := by
  intro key s s' t t' hready hready' hr hr' hexec hexec'
  rw [keygenCompletes key s hready hr] at hexec
  rw [keygenCompletes key s' hready' hr'] at hexec'
  injection hexec with ht
  injection hexec' with ht'
  rw [← ht, ← ht']

/-- The state in which an uninterrupted `KEYGEN` ends. -/
def State.afterKeygen (key : Block) (s : State) : State :=
  { s with
    RK := generateRoundKeys key, KV := true, OP := 0b010#3, OUT := 0, STATUS := 1, PH := .final,
    C := (scheduleState key 16).1, D := (scheduleState key 16).2, inputs := s.inputs.drop 17 }

/-- Settles O23: `KEYGEN` leaves the schedule under which the second command then processes the block,
and the two commands use up the 36 samples of the one. -/
theorem keygenThenBlockEqualsFullCipher : Obligations.KeygenThenBlockEqualsFullCipher := by
  intro x key s hready hr
  have hkeygen := keygenCompletes key s hready (noResetFor_mono hr (by decide))
  have hr19 : (s.afterKeygen key).noResetFor 19 = true := noResetFor_drop (m := 17) hr rfl
  have hencblk := encblkCompletes x (s.afterKeygen key) rfl rfl hr19
  have hdecblk := decblkCompletes x (s.afterKeygen key) rfl rfl hr19
  have hdrop : (s.inputs.drop 17).drop 19 = s.inputs.drop 36 := List.drop_drop
  refine ⟨_, _, _, _, _, hkeygen, outputs_of_final rfl, hencblk, hdecblk,
    encryptCompletes x key s hready hr, decryptCompletes x key s hready hr, ?_, rfl, ?_, rfl,
    outputs_of_final rfl, outputs_of_final rfl⟩
  · rw [← hdrop]
    rfl
  · rw [← hdrop]
    rfl

end Sys2Proof.Machine
end

section
/-! A command as a run of the step machine: the steps and phases of an undisturbed command
(45_entry_points.md R203, 70_reset_and_hazards.md R247), and a command that a reset interrupts (R241). -/

namespace Sys2Proof.Machine

/-! ### The samples that a run uses up -/

/-- Every step of a busy core uses up one sample, a reset too. -/
theorem busyTick_inputs (s : State) : s.busyTick.inputs = s.inputs.tail := by
  cases hr : s.port.rst with
  | true => rw [busyTick_of_reset hr]; rfl
  | false => rw [busyTick_of_no_reset hr, internalStep_inputs]; rfl

/-- A run of `k` steps uses up `k` samples. -/
theorem busyTick_iterate_inputs (k : Nat) (s : State) :
    (State.busyTick^[k] s).inputs = s.inputs.drop k := by
  induction k with
  | zero => rfl
  | succ k ih => rw [Function.iterate_succ_apply', busyTick_inputs, ih, List.tail_drop]

/-- Acceptance uses up none. -/
theorem noResetFor_accept (i : Instr) (s : State) (n : Nat) :
    (s.accept i).noResetFor n = s.noResetFor n := by
  rw [State.noResetFor, accept_inputs, State.noResetFor]

/-! ### The states within a command -/

/-- Before its last step a command is in progress, and nothing of it shows. -/
theorem command_busy (i : Instr) (s : State) {k : Nat} (hk : k + 1 < commandSteps i s.KV)
    (hr : s.noResetFor k = true) :
    (State.busyTick^[k] (s.accept i)).PH.ready = false ∧ (State.busyTick^[k] (s.accept i)).Quiet := by
  obtain ⟨hph, hquiet⟩ := command_phase i s (k := k) (by omega) (by rwa [noResetFor_accept])
  refine ⟨?_, hquiet hk⟩
  rw [hph, commandPhases_ready i s.KV k (by omega)]
  exact decide_eq_false (by omega)

/-- While the core is busy the step machine takes the steps of the command in progress. -/
theorem tick_iterate_of_busy {s : State} {k : Nat}
    (h : ∀ j < k, (State.busyTick^[j] s).PH.ready = false) :
    State.tick^[k] s = State.busyTick^[k] s := by
  induction k with
  | zero => rfl
  | succ k ih =>
    rw [Function.iterate_succ_apply', ih fun j hj => h j (by omega), tick_of_busy (h k (by omega)),
      Function.iterate_succ_apply']

/-- The step machine on a command: the acceptance, then `k` of the steps that follow it. -/
theorem tick_iterate_command {s : State} (hready : s.PH.ready = true)
    (hvalid : s.port.cmdValid = true) {k : Nat} (hk : k < commandSteps s.port.command s.KV)
    (hr : s.noResetFor (k + 1) = true) :
    State.tick^[k + 1] s = State.busyTick^[k] (s.advance.accept s.port.command) := by
  obtain ⟨hrst, hr'⟩ := noResetFor_succ hr
  rw [Function.iterate_succ_apply, tick_of_accept hready hrst hvalid]
  exact tick_iterate_of_busy fun j hj =>
    (command_busy s.port.command s.advance (k := j) (by simp; omega)
      (noResetFor_mono hr' (by omega))).1

/-- Settles O24: the step machine accepts and then takes the steps that `exec` takes, whose phases are
the tabulated ones and whose states show nothing before the last. -/
theorem commandIsRunOfStepMachine : Obligations.CommandIsRunOfStepMachine := by
  intro s n hready hvalid hn hr
  have hpos : 0 < n := hn ▸ commandSteps_pos _ _
  obtain ⟨m, rfl⟩ : ∃ m, n = m + 1 := ⟨n - 1, by omega⟩
  obtain ⟨hrst, hr'⟩ := noResetFor_succ hr
  have hrun : ∀ k ≤ m,
      State.tick^[k + 1] s = State.busyTick^[k] (s.advance.accept s.port.command) := fun k hk =>
    tick_iterate_command hready hvalid (by omega) (noResetFor_mono hr (by omega))
  refine ⟨?_, ?_, fun k hpos hk => ?_⟩
  · rw [step_of_command hrst hvalid, exec_of_ready _ (by simpa using hready),
      finish_command _ _ m (by simpa using hn.symm) hr', hrun m (Nat.le_refl m)]
  · apply List.ext_getElem
    · rw [commandPhases_length, ← hn, List.length_map, List.length_range]
    · intro k hk hk'
      have hkm : k < m + 1 := by simpa using hk
      have hphase := (command_phase s.port.command s.advance (k := k) (by simp; omega)
        (by rw [noResetFor_accept]; exact noResetFor_mono hr' (by omega))).1
      rw [List.getElem_map, List.getElem_range, hrun k (by omega), hphase,
        List.getD_eq_getElem _ _ (by simpa using hk')]
      rfl
  · obtain ⟨j, rfl⟩ : ∃ j, k = j + 1 := ⟨k - 1, by omega⟩
    obtain ⟨hbusy, hquiet⟩ := command_busy s.port.command s.advance (k := j) (by simp; omega)
      (noResetFor_mono hr' (by omega))
    rw [hrun j (by omega)]
    exact outputs_of_busy hbusy hquiet

/-! ### A reset within a command -/

/-- The samples before the first reset assert none. -/
theorem noResetFor_before {s : State} {before rest : List PortSample}
    (hin : s.inputs = before ++ rest) (h : ∀ q ∈ before, q.rst = false) :
    s.noResetFor before.length = true := by
  rw [State.noResetFor, hin, List.take_left, List.all_eq_true]
  intro q hq
  rw [h q hq]
  rfl

/-- Where a reset falls on a command in progress, the command is over and the state is that of the
reset event. -/
theorem finish_of_reset {s : State} (hbusy : s.PH.ready = false) (hrst : s.port.rst = true) (n : Nat) :
    State.finish (n + 1) s = s.advance.resetEvent := by
  rw [finish_of_busy hbusy, busyTick_of_reset hrst, finish_of_ready rfl]

/-- Settles O3: the command is in progress up to the reset, and the reset event ends it. -/
theorem resetAbandonsCommandInProgress : Obligations.ResetAbandonsCommandInProgress := by
  intro i s before p after hready hin hbefore hp hlen
  have hr : s.noResetFor before.length = true := noResetFor_before hin hbefore
  have hbusy : ∀ k ≤ before.length, (State.busyTick^[k] (s.accept i)).PH.ready = false ∧
      (State.busyTick^[k] (s.accept i)).Quiet := fun k hk =>
    command_busy i s (by omega) (noResetFor_mono hr hk)
  refine ⟨?_, fun k hk => outputs_of_busy (hbusy k hk).1 (hbusy k hk).2⟩
  obtain ⟨n, hn⟩ : ∃ n, maxInternalSteps = before.length + (n + 1) :=
    ⟨35 - before.length, by
      have := commandSteps_le i s.KV
      have h36 : maxInternalSteps = 36 := rfl
      omega⟩
  have hinputs : (State.busyTick^[before.length] (s.accept i)).inputs = p :: after := by
    rw [busyTick_iterate_inputs, accept_inputs, hin, List.drop_left]
  have hend : exec i s =
      .next (State.busyTick^[before.length] (s.accept i)).advance.resetEvent := by
    rw [exec_of_ready i hready, hn, finish_iterate fun j hj => (hbusy j (by omega)).1,
      finish_of_reset (hbusy _ (Nat.le_refl _)).1 (by rw [port_of_inputs hinputs]; exact hp)]
  refine ⟨_, hend, resetEvent_PH _, resetEvent_KV _, resetEvent_STATUS _, resetEvent_OUT _,
    resetEvent_OP _, ?_⟩
  rw [resetEvent_inputs, advance_inputs, hinputs, List.tail_cons]

end Sys2Proof.Machine
end

section
/-! The trace of a command (60_exceptions.md R231): the events of a key schedule and of a block operation,
each read from the closed form of the run, and every command put together from the two. -/

namespace Sys2Proof.Machine

/-! ### The events of a run -/

/-- The events of a run are those of its first part, then those of the rest. -/
theorem traceRun_add (m n : Nat) (s : State) :
    State.traceRun (m + n) s = State.traceRun m s ++ State.traceRun n (State.tick^[m] s) := by
  induction m generalizing s with
  | zero => simp [State.traceRun]
  | succ m ih =>
    rw [Nat.succ_add, State.traceRun, ih, State.traceRun, List.append_assoc,
      Function.iterate_succ_apply]

/-- The events of one step. -/
theorem traceRun_one (s : State) : State.traceRun 1 s = s.traceEvent.toList := by
  simp [State.traceRun]

/-- A run whose every step emits an event. -/
theorem traceRun_eq_map {s : State} {n : Nat} {f : Nat → TraceEvent}
    (h : ∀ k < n, (State.tick^[k] s).traceEvent = some (f k)) :
    State.traceRun n s = (List.range n).map f := by
  induction n with
  | zero => rfl
  | succ n ih =>
    rw [traceRun_add, ih fun k hk => h k (by omega), traceRun_one, h n (by omega), List.range_succ,
      List.map_append]
    rfl

/-- The event of a step within a command. -/
theorem traceEvent_iterate {s : State} {k : Nat}
    (hbusy : ∀ j ≤ k, (State.busyTick^[j] s).PH.ready = false) (hr : s.noResetFor (k + 1) = true) :
    (State.tick^[k] s).traceEvent =
      internalTrace (State.busyTick^[k] s) (State.busyTick^[k + 1] s) := by
  have hb := hbusy k (Nat.le_refl k)
  have hrst : (State.busyTick^[k] s).port.rst = false :=
    port_rst_of_noResetFor hr (busyTick_iterate_inputs k s)
  rw [tick_iterate_of_busy fun j hj => hbusy j (by omega), Function.iterate_succ_apply',
    State.traceEvent, tick_of_busy hb]
  simp [hrst, hb]

/-! ### A key schedule -/

/-- The event of round `k + 1` of the key schedule. -/
def scheduleEvent (key : Block) (k : Nat) : TraceEvent :=
  ⟨BitVec.ofNat 6 (2 + k), ((scheduleState key (k + 1)).1 ++ (scheduleState key (k + 1)).2).setWidth 64,
    scheduledKey key (k + 1)⟩

/-- The event of an acceptance that loads a key, and the sixteen rounds' events. -/
theorem scheduleTrace_eq (key : Block) : scheduleTrace key =
    ⟨1, (keyC0 key ++ keyD0 key).setWidth 64, 0⟩ :: (List.range 16).map (scheduleEvent key) := rfl

section
variable {s : State} {key : Block} (hph : s.PH = .ks 0) (hc : s.C = keyC0 key) (hd : s.D = keyD0 key)
include hph hc hd

/-- A key schedule is busy up to `KS(16)`. -/
theorem ready_during_schedule {k : Nat} (hk : k ≤ 16) (hr : s.noResetFor k = true) :
    (State.busyTick^[k] s).PH.ready = false := by
  rw [busy_during_schedule hph hc hd hk hr]
  rfl

/-- Each round's event has the halves and the round key that the round writes. -/
theorem traceEvent_schedule {k : Nat} (hk : k < 16) (hr : s.noResetFor (k + 1) = true) :
    (State.tick^[k] s).traceEvent = some (scheduleEvent key k) := by
  have hbusy : ∀ j ≤ k, (State.busyTick^[j] s).PH.ready = false := fun j hj =>
    ready_during_schedule hph hc hd (by omega) (noResetFor_mono hr (by omega))
  have h17 : k % 17 = k := by omega
  have h17' : (k + 1) % 17 = k + 1 := by omega
  rw [traceEvent_iterate hbusy hr,
    busyTick_iterate_schedule hph hc hd (Nat.le_of_lt hk) (noResetFor_mono hr (Nat.le_succ k)),
    busyTick_iterate_schedule hph hc hd hk hr]
  have hkey : (scheduledStore key s.RK (k + 1))[k] = scheduledKey key (k + 1) := by
    rw [getElem_scheduledStore key s.RK hk k hk, if_pos (Nat.lt_succ_self k)]
  simp only [internalTrace, Fin.val_ofNat, h17, hk, dite_true, scheduleEvent, Phase.code, h17',
    State.traceKeyHalves, readKey, Fin.getElem_fin, hkey, show 1 + (k + 1) = 2 + k by omega]

/-- The seventeen steps of a key schedule: `KS-DONE` emits no event. -/
theorem traceRun_schedule (hr : s.noResetFor 17 = true) :
    State.traceRun 17 s = (List.range 16).map (scheduleEvent key) := by
  have hbusy : ∀ j ≤ 16, (State.busyTick^[j] s).PH.ready = false := fun j hj =>
    ready_during_schedule hph hc hd hj (noResetFor_mono hr (by omega))
  have hlast : (State.tick^[16] s).traceEvent = none := by
    rw [traceEvent_iterate hbusy hr,
      busyTick_iterate_schedule hph hc hd (Nat.le_refl 16) (noResetFor_mono hr (by omega))]
    rfl
  rw [show 17 = 16 + 1 from rfl, traceRun_add, traceRun_one, hlast, Option.toList_none,
    List.append_nil]
  exact traceRun_eq_map fun k hk => traceEvent_schedule hph hc hd hk (noResetFor_mono hr (by omega))

/-- The step machine after the seventeen steps. -/
theorem tick_iterate_whole_schedule (hr : s.noResetFor 17 = true) :
    State.tick^[17] s = State.ksDone (State.scheduled key s) := by
  rw [tick_iterate_of_busy fun j hj =>
      ready_during_schedule hph hc hd (by omega) (noResetFor_mono hr (by omega)),
    busyTick_iterate_whole_schedule hph hc hd hr]

end

/-! ### A block operation -/

/-- The event of Feistel round `k + 1`. -/
def driverEvent (x : Block) (rk : RoundKeys) (mode : Mode) (k : Nat) : TraceEvent :=
  ⟨BitVec.ofNat 6 (20 + k), (roundState rk mode x (k + 1)).1 ++ (roundState rk mode x (k + 1)).2,
    readKey rk (keyIndex mode (Fin.ofNat 16 k))⟩

/-- The event of the initial permutation, the sixteen rounds' events, and the result's. -/
theorem driverTrace_eq (x : Block) (rk : RoundKeys) (mode : Mode) : driverTrace x rk mode =
    ⟨19, (initialHalves x).1 ++ (initialHalves x).2, 0⟩ ::
      ((List.range 16).map (driverEvent x rk mode) ++ [⟨37, processBlock x rk mode, 0⟩]) := rfl

/-- A step from before Feistel round `k + 1` to after it emits the round's event. -/
theorem internalTrace_round {s t : State} {k : Nat} (hk : k < 16) (hs : s.PH = roundPhase k)
    (ht : t.PH = roundPhase (k + 1)) : internalTrace s t =
      some ⟨BitVec.ofNat 6 (20 + k), t.traceRoundHalves,
        readKey s.RK (keyIndex (Opcode.mode s.OP) (Fin.ofNat 16 k))⟩ := by
  have h16 : k % 16 = k := Nat.mod_eq_of_lt hk
  cases k with
  | zero => simp [internalTrace, hs, ht, roundPhase, Phase.code]
  | succ k =>
    have hk16 : k % 16 = k := by omega
    have hindex : (⟨k + 1, hk⟩ : Fin 16) = Fin.ofNat 16 (k + 1) := Fin.ext h16.symm
    simp [internalTrace, hs, ht, roundPhase, Phase.code, hk, h16, hk16, hindex]

section
variable {s : State} (hph : s.PH = .initial) (hquiet : s.Quiet)
include hph hquiet

/-- A block operation is busy up to `PreFinal`. -/
theorem ready_during_driver {k : Nat} (hk : k < 19) (hr : s.noResetFor k = true) :
    (State.busyTick^[k] s).PH.ready = false := by
  have hphases : ∀ j < 19, (driverPhases.getD j .idle).ready = false := by decide
  rw [(driver_phase hph hquiet (Nat.le_of_lt hk) hr).1]
  exact hphases k hk

/-- Each round's event has the halves that the round writes and the round key that it uses. -/
theorem traceEvent_driver {k : Nat} (hk : k < 16) (hr : s.noResetFor (k + 2) = true) :
    (State.tick^[k + 1] s).traceEvent = some (driverEvent s.IN s.RK (Opcode.mode s.OP) k) := by
  have hbusy : ∀ j ≤ k + 1, (State.busyTick^[j] s).PH.ready = false := fun j hj =>
    ready_during_driver hph hquiet (by omega) (noResetFor_mono hr (by omega))
  rw [traceEvent_iterate hbusy hr,
    busyTick_iterate_driver hph (Nat.le_of_lt hk) (noResetFor_mono hr (by omega)),
    busyTick_iterate_driver hph hk hr, internalTrace_round hk rfl rfl]
  rfl

/-- The nineteen steps of a block operation: `DRV-PREFINAL` emits no event. -/
theorem traceRun_driver (hr : s.noResetFor 19 = true) :
    State.traceRun 19 s = driverTrace s.IN s.RK (Opcode.mode s.OP) := by
  have hbusy : ∀ k < 19, ∀ j ≤ k, (State.busyTick^[j] s).PH.ready = false := fun k hk j hj =>
    ready_during_driver hph hquiet (by omega) (noResetFor_mono hr (by omega))
  obtain ⟨h18, h19⟩ := busyTick_iterate_whole_driver hph hr
  have hfirst : s.traceEvent = some ⟨19, (initialHalves s.IN).1 ++ (initialHalves s.IN).2, 0⟩ := by
    have h := traceEvent_iterate (hbusy 0 (by omega)) (noResetFor_mono hr (by omega))
    rw [busyTick_iterate_driver hph (by omega) (noResetFor_mono hr (by omega)),
      Function.iterate_zero_apply, Function.iterate_zero_apply] at h
    rw [h]
    simp [internalTrace, hph, roundPhase, Phase.code, State.traceRoundHalves, roundState]
  have hrounds : State.traceRun 16 (State.tick^[1] s) =
      (List.range 16).map (driverEvent s.IN s.RK (Opcode.mode s.OP)) :=
    traceRun_eq_map fun k hk => by
      rw [← Function.iterate_add_apply]
      exact traceEvent_driver hph hquiet hk (noResetFor_mono hr (by omega))
  have hpre : (State.tick^[17] s).traceEvent = none := by
    rw [traceEvent_iterate (hbusy 17 (by omega)) (noResetFor_mono hr (by omega)),
      busyTick_iterate_driver hph (Nat.le_refl 16) (noResetFor_mono hr (by omega))]
    rfl
  have hlast : (State.tick^[18] s).traceEvent =
      some ⟨37, processBlock s.IN s.RK (Opcode.mode s.OP), 0⟩ := by
    rw [traceEvent_iterate (hbusy 18 (by omega)) hr, h18, h19]
    rfl
  have hsplit : State.traceRun 19 s = State.traceRun 1 s ++ State.traceRun 16 (State.tick^[1] s) ++
      State.traceRun 1 (State.tick^[17] s) ++ State.traceRun 1 (State.tick^[18] s) := by
    rw [show 19 = 1 + 16 + 1 + 1 from rfl, traceRun_add, traceRun_add, traceRun_add]
  rw [hsplit, traceRun_one, traceRun_one, traceRun_one, hfirst, hrounds, hpre, hlast, driverTrace_eq]
  simp

end

/-! ### The commands -/

/-- An acceptance that leaves for `KS(0)` emits C_0 and D_0. -/
theorem acceptTrace_of_ks {s : State} (h : s.PH = .ks 0) :
    acceptTrace s = some ⟨1, s.traceKeyHalves, 0⟩ := by
  rw [acceptTrace, h]
  rfl

/-- A key-bearing command with a block operation under it. -/
theorem trace_acceptKeyAndBlock {s : State} {op : Opcode} (hop : op.getLsbD 2 = true)
    (block key : Block) (hr : s.noResetFor 36 = true) :
    (acceptTrace (State.acceptKeyAndBlock op block key s)).toList ++
        State.traceRun 36 (State.acceptKeyAndBlock op block key s) =
      scheduleTrace key ++ driverTrace block (generateRoundKeys key) (Opcode.mode op) := by
  have hr17 : (State.acceptKeyAndBlock op block key s).noResetFor 17 = true :=
    noResetFor_mono (m := 17) hr (by decide)
  have hr19 : (State.enter .initial (State.setKeyValid true
      (State.scheduled key (State.acceptKeyAndBlock op block key s)))).noResetFor 19 = true :=
    noResetFor_drop (m := 17) hr rfl
  have hdriver := traceRun_driver (s := State.enter .initial (State.setKeyValid true
    (State.scheduled key (State.acceptKeyAndBlock op block key s)))) rfl ⟨rfl, rfl⟩ hr19
  rw [acceptTrace_of_ks rfl, show 36 = 17 + 19 from rfl, traceRun_add,
    traceRun_schedule (key := key) rfl rfl rfl hr17,
    tick_iterate_whole_schedule (key := key) rfl rfl rfl hr17, ksDone_of_blk hop, hdriver,
    scheduleTrace_eq]
  rfl

/-- A block operation alone, with and without a stored schedule. -/
theorem trace_acceptBlock {s : State} (op : Opcode) (block : Block)
    (hr : s.noResetFor ((if s.KV then 20 else 1) - 1) = true) :
    (acceptTrace (State.acceptBlock op block s)).toList ++
        State.traceRun ((if s.KV then 20 else 1) - 1) (State.acceptBlock op block s) =
      if s.KV then driverTrace block s.RK (Opcode.mode op) else [] := by
  cases hkv : s.KV with
  | true =>
    rw [hkv] at hr
    rw [acceptBlock_of_key hkv]
    exact traceRun_driver (s := State.enter .initial { State.beginCommand op s with IN := block })
      rfl ⟨rfl, rfl⟩ hr
  | false =>
    rw [acceptBlock_of_no_key hkv]
    rfl

/-- The events of every command: its acceptance's, then those of the steps that follow it. -/
theorem trace_accept (i : Instr) {s : State} (hr : s.noResetFor (commandSteps i s.KV - 1) = true) :
    (acceptTrace (s.accept i)).toList ++ State.traceRun (commandSteps i s.KV - 1) (s.accept i) =
      commandTrace i s.RK s.KV := by
  cases i with
  | keygen key =>
    rw [acceptTrace_of_ks rfl]
    exact congrArg _ (traceRun_schedule (key := key) rfl rfl rfl hr)
  | encblk block | decblk block => exact trace_acceptBlock _ block hr
  | encrypt block key | decrypt block key => exact trace_acceptKeyAndBlock rfl block key hr
  | reserved000 | reserved001 | reserved011 => rfl

/-- Settles O59: a command's first step is its acceptance. -/
theorem traceOfEveryCommand : Obligations.TraceOfEveryCommand := by
  intro s hready hvalid hr
  have hpos := commandSteps_pos s.port.command s.KV
  obtain ⟨n, hn⟩ : ∃ n, commandSteps s.port.command s.KV = n + 1 :=
    ⟨commandSteps s.port.command s.KV - 1, by omega⟩
  rw [hn] at hr ⊢
  obtain ⟨hrst, hr'⟩ := noResetFor_succ hr
  have hevent : s.traceEvent = acceptTrace s.tick := by
    simp [State.traceEvent, hrst, hready, hvalid]
  have htrace := trace_accept s.port.command (s := s.advance) (by simpa [hn] using hr')
  rw [State.traceRun, hevent, tick_of_accept hready hrst hvalid]
  simpa [hn] using htrace

end Sys2Proof.Machine
end

section
/-! Rules about every step and every command: what a block operation never writes (20_memory.md R70),
how a command can end (60_exceptions.md R217 to R220), and what no response depends on (10_state.md
R36). -/

namespace Sys2Proof.Machine

/-! ### The round keys during a block operation -/

/-- The driver's steps read `RK` and `KV` and write neither. -/
theorem internalStep_keys_of_inDriver {s : State} (h : s.PH.inDriver = true) :
    s.internalStep.RK = s.RK ∧ s.internalStep.KV = s.KV := by
  obtain ⟨-, hs⟩ | ⟨i, hph, hs⟩ | ⟨hph, hs⟩ | ⟨-, hs⟩ | ⟨i, -, hs⟩ | ⟨-, hs⟩ | ⟨-, hs⟩ :=
    internalStep_cases s.PH <;> rw [hs s rfl]
  case inr.inl => simp [hph, Phase.inDriver] at h
  case inr.inr.inl => simp [hph, Phase.inDriver] at h
  all_goals exact ⟨rfl, rfl⟩

/-- `ACCEPT` of a block-only opcode writes neither, whether it starts the driver or fails. -/
theorem acceptBlock_keys (op : Opcode) (block : Block) (s : State) :
    (State.acceptBlock op block s).RK = s.RK ∧ (State.acceptBlock op block s).KV = s.KV := by
  cases hkv : s.KV with
  | true => rw [acceptBlock_of_key hkv]; exact ⟨rfl, hkv⟩
  | false => rw [acceptBlock_of_no_key hkv]; exact ⟨rfl, hkv⟩

/-- Settles O25: a driver phase enables one of the driver's steps, and the two opcodes are accepted as
block-only. -/
theorem roundKeysImmutableDuringBlockOperation :
    Obligations.RoundKeysImmutableDuringBlockOperation := by
  refine ⟨fun s hph hrst => ?_, fun s hready hrst hvalid hop => ?_⟩
  · rw [tick_of_busy (ready_of_inDriver hph), busyTick_of_no_reset hrst]
    exact internalStep_keys_of_inDriver (s := s.advance) hph
  · rw [tick_of_accept_ports hready hrst hvalid, accept_decodePorts_of_blockOnly hop]
    exact acceptBlock_keys _ _ s.advance

/-! ### How a step of a command in progress can end -/

/-- The enabled internal step leaves `STATUS` alone and the core busy, or completes the command. -/
theorem internalStep_busy_cases {s : State} (h : s.PH.ready = false) :
    (s.internalStep.PH.ready = false ∧ s.internalStep.STATUS = s.STATUS) ∨
      (s.internalStep.PH = .final ∧ s.internalStep.STATUS = statusOk) := by
  obtain ⟨hready, -⟩ | ⟨i, -, hs⟩ | ⟨-, hs⟩ | ⟨-, hs⟩ | ⟨i, -, hs⟩ | ⟨-, hs⟩ | ⟨-, hs⟩ :=
    internalStep_cases s.PH
  · simp [h] at hready
  · rw [hs s rfl]; exact .inl ⟨rfl, rfl⟩
  · rw [hs s rfl]
    cases hblk : s.OP.getLsbD 2 with
    | true => rw [ksDone_of_blk hblk]; exact .inl ⟨rfl, rfl⟩
    | false => rw [ksDone_of_not_blk hblk]; exact .inr ⟨rfl, rfl⟩
  · rw [hs s rfl]; exact .inl ⟨rfl, rfl⟩
  · rw [hs s rfl]; exact .inl ⟨rfl, rfl⟩
  · rw [hs s rfl]; exact .inl ⟨rfl, rfl⟩
  · rw [hs s rfl]; exact .inr ⟨rfl, rfl⟩

/-- A step of a command in progress leaves `STATUS` alone and the core busy, completes the command, or
is the reset event. -/
theorem busyTick_cases {s : State} (h : s.PH.ready = false) :
    (s.busyTick.PH.ready = false ∧ s.busyTick.STATUS = s.STATUS) ∨
      (s.busyTick.PH = .final ∧ s.busyTick.STATUS = statusOk) ∨
      (s.busyTick.PH = .idle ∧ s.busyTick.STATUS = statusNone) := by
  cases hrst : s.port.rst with
  | true => rw [busyTick_of_reset hrst]; exact .inr (.inr ⟨rfl, rfl⟩)
  | false =>
    rw [busyTick_of_no_reset hrst]
    exact (internalStep_busy_cases (s := s.advance) h).imp_right .inl

/-! ### Failures -/

/-- No step of a command in progress leads to `Failed`, so a command that has not failed in its
acceptance does not fail. -/
theorem finish_not_failed {s : State} (h : s.PH ≠ .failed) (n : Nat) :
    (State.finish n s).PH ≠ .failed := by
  refine finish_induction (P := fun s => s.PH ≠ .failed) (fun s hbusy _ hph => ?_) h n
  obtain ⟨hb, -⟩ | ⟨hp, -⟩ | ⟨hp, -⟩ := busyTick_cases hbusy
  · simp [hph, Phase.ready] at hb
  · simp [hph] at hp
  · simp [hph] at hp

/-- A command that fails fails in its acceptance, and nothing follows it. -/
theorem exec_failed {i : Instr} {s t : State} (hready : s.PH.ready = true)
    (h : exec i s = .next t) (hfailed : t.PH = .failed) : t = s.accept i := by
  rw [exec_of_ready i hready] at h
  injection h with h
  subst h
  have hph : (s.accept i).PH = .failed := by
    by_contra hne
    exact finish_not_failed hne _ hfailed
  exact finish_of_ready (by rw [hph]; rfl) _

/-- What a failing acceptance writes, and why it fails. -/
theorem accept_failed {i : Instr} {s : State} (h : (s.accept i).PH = .failed) :
    ∃ code, s.accept i = { s with OP := i.opcode, OUT := 0, STATUS := code, PH := .failed } ∧
      ((code = 6 ∧ i.opcode ∈ [0b000#3, 0b001#3, 0b011#3]) ∨
        (code = 7 ∧ s.KV = false ∧ i.opcode ∈ [0b100#3, 0b101#3])) := by
  have hblock : ∀ op block, (State.acceptBlock op block s).PH = .failed → s.KV = false ∧
      State.acceptBlock op block s = { s with OP := op, OUT := 0, STATUS := 7, PH := .failed } := by
    intro op block hph
    cases hkv : s.KV with
    | true => simp [acceptBlock_of_key hkv] at hph
    | false => rw [acceptBlock_of_no_key hkv, ← hkv]; exact ⟨rfl, rfl⟩
  cases i with
  | keygen | encrypt | decrypt =>
    simp [State.accept, State.acceptKey, State.acceptKeyAndBlock, State.loadKey] at h
  | encblk block | decblk block =>
    obtain ⟨hkv, heq⟩ := hblock _ block h
    exact ⟨7, heq, .inr ⟨rfl, hkv, by simp [Instr.opcode]⟩⟩
  | reserved000 | reserved001 | reserved011 => exact ⟨6, rfl, .inl ⟨rfl, by decide⟩⟩

/-- Settles O26: the failing command is its acceptance, which writes the four registers. -/
theorem failuresArePrecise : Obligations.FailuresArePrecise := by
  intro i s t hready hexec hfailed
  obtain rfl := exec_failed hready hexec hfailed
  obtain ⟨code, heq, hcode⟩ := accept_failed hfailed
  rw [heq]
  exact ⟨rfl, hcode⟩

/-- No acceptance reads `OP`, `OUT`, `STATUS` or `PH`: it writes all four. -/
theorem accept_response_registers (i : Instr) (s : State) (op : Opcode) (out : Block)
    (status : Status) (ph : Phase) :
    State.accept i { s with OP := op, OUT := out, STATUS := status, PH := ph } = s.accept i := by
  cases i with
  | keygen | encrypt | decrypt | reserved000 | reserved001 | reserved011 => rfl
  | encblk | decblk => simp only [State.accept, State.acceptBlock]; split <;> rfl

/-- Settles O27: what the failure wrote is read by no acceptance. -/
theorem failingCommandFailsAgain : Obligations.FailingCommandFailsAgain := by
  intro i s t hready hexec hfailed
  have hready' : t.PH.ready = true := by rw [hfailed]; rfl
  obtain ⟨heq, -⟩ := failuresArePrecise i s t hready hexec hfailed
  have hnext : ∀ j : Instr, exec j t = exec j s := fun j => by
    rw [exec_of_ready j hready', exec_of_ready j hready, heq, accept_response_registers]
  exact ⟨(hnext i).trans hexec, hready', hnext⟩

/-! ### How a command ends -/

/-- The status codes of the machine: none of the function level's codes from 2 to 5. -/
def machineCodes : List Status := [0, 1, 6, 7]

/-- An internal step in any phase reports no other code. -/
theorem internalStep_codes {s : State} (h : s.STATUS ∈ machineCodes) :
    s.internalStep.STATUS ∈ machineCodes := by
  cases hready : s.PH.ready with
  | true => rwa [internalStep_ready hready]
  | false =>
    obtain ⟨-, hstatus⟩ | ⟨-, hstatus⟩ := internalStep_busy_cases hready <;> rw [hstatus]
    · exact h
    · decide

/-- A state of a command from its acceptance on: in progress, completed, failed, or abandoned, with the
status of each. -/
def State.InCommand (s : State) : Prop :=
  (s.PH.ready = false ∧ s.STATUS = statusNone) ∨ (s.PH = .final ∧ s.STATUS = 1) ∨
    (s.PH = .failed ∧ (s.STATUS = 6 ∨ s.STATUS = 7)) ∨ (s.PH = .idle ∧ s.STATUS = 0)

/-- Every acceptance starts its command or fails it. -/
theorem accept_inCommand (i : Instr) (s : State) : (s.accept i).InCommand := by
  cases i with
  | keygen | encrypt | decrypt => exact .inl ⟨rfl, rfl⟩
  | reserved000 | reserved001 | reserved011 => exact .inr (.inr (.inl ⟨rfl, .inl rfl⟩))
  | encblk block | decblk block =>
    rw [State.accept]
    cases hkv : s.KV with
    | true => rw [acceptBlock_of_key hkv]; exact .inl ⟨rfl, rfl⟩
    | false => rw [acceptBlock_of_no_key hkv]; exact .inr (.inr (.inl ⟨rfl, .inr rfl⟩))

/-- Every step of a command in progress leaves it in progress, completes it or abandons it. -/
theorem busyTick_inCommand {s : State} (hbusy : s.PH.ready = false) (h : s.InCommand) :
    s.busyTick.InCommand := by
  have hnone : s.STATUS = statusNone := by
    obtain ⟨-, hstatus⟩ | ⟨hph, -⟩ | ⟨hph, -⟩ | ⟨hph, -⟩ := h
    · exact hstatus
    all_goals simp [hph, Phase.ready] at hbusy
  obtain ⟨hb, hstatus⟩ | hfinal | hidle := busyTick_cases hbusy
  · exact .inl ⟨hb, hstatus.trans hnone⟩
  · exact .inr (.inl hfinal)
  · exact .inr (.inr (.inr hidle))

/-- Where a command from a ready phase ends. -/
theorem finish_inCommand (i : Instr) (s : State) (n : Nat) :
    (State.finish n (s.accept i)).InCommand :=
  finish_induction (P := State.InCommand) (fun _ => busyTick_inCommand) (accept_inCommand i s) n

/-- A command's states have codes of the machine. -/
theorem inCommand_codes {s : State} (h : s.InCommand) : s.STATUS ∈ machineCodes := by
  obtain ⟨-, hstatus⟩ | ⟨-, hstatus⟩ | ⟨-, hstatus | hstatus⟩ | ⟨-, hstatus⟩ := h <;>
    rw [hstatus] <;> decide

/-- `Idle` is no phase of a command. -/
theorem idle_notMem_commandPhases (i : Instr) (kv : Bool) : Phase.idle ∉ commandPhases i kv := by
  have hks : Phase.idle ∉ keySchedulePhases := by decide
  have hdriver : Phase.idle ∉ driverPhases := by decide
  cases i <;> cases kv <;> simp [commandPhases, hks, hdriver]

/-- A command that ends in `Idle` was interrupted by a reset. -/
theorem reset_of_finish_idle {i : Instr} {s : State}
    (h : (State.finish maxInternalSteps (s.accept i)).PH = .idle) :
    s.noResetFor (commandSteps i s.KV - 1) = false := by
  by_contra hr
  rw [Bool.not_eq_false] at hr
  have hpos := commandSteps_pos i s.KV
  have hlt : commandSteps i s.KV - 1 < commandSteps i s.KV := by omega
  rw [finish_command i s _ (by omega) hr, (command_phase i s hlt (by rwa [noResetFor_accept])).1,
    List.getD_eq_getElem _ _ (by rwa [commandPhases_length])] at h
  exact idle_notMem_commandPhases i s.KV (h ▸ List.getElem_mem _)

/-- Every command answers a next state, and reports no code but the machine's. -/
theorem exec_answers (i : Instr) (s : State) : ∃ t, exec i s = .next t ∧
    (s.STATUS ∈ machineCodes → t.STATUS ∈ machineCodes) := by
  cases hready : s.PH.ready with
  | true => exact ⟨_, exec_of_ready i hready, fun _ => inCommand_codes (finish_inCommand i s _)⟩
  | false => exact ⟨_, exec_of_busy i hready, internalStep_codes⟩

/-- Settles O28: a step is the reset event, a command or an internal step; a command ends ready, in one
of the three ready phases with the status that belongs to it. -/
theorem sourceConditionsNeverReported : Obligations.SourceConditionsNeverReported := by
  refine ⟨fun s => ?_, exec_answers, fun i s t hready hexec => ?_⟩
  · cases hrst : s.port.rst with
    | true => exact ⟨_, step_of_reset hrst, fun _ => by rw [resetEvent_STATUS]; decide⟩
    | false =>
      cases hvalid : s.port.cmdValid with
      | true => rw [step_of_command hrst hvalid]; exact exec_answers _ s.advance
      | false => exact ⟨_, step_of_no_command hrst hvalid, internalStep_codes (s := s.advance)⟩
  · have hend := exec_ready hready hexec
    rw [exec_of_ready i hready] at hexec
    injection hexec with ht
    subst ht
    obtain ⟨hbusy, -⟩ | hfinal | hfailed | ⟨hidle, hstatus⟩ := finish_inCommand i s maxInternalSteps
    · simp [hend] at hbusy
    · exact .inl hfinal
    · exact .inr (.inl hfailed)
    · exact .inr (.inr ⟨hidle, hstatus, reset_of_finish_idle hidle⟩)

/-! ### Two cores that run the same command -/

/-- Two states within the same command: they agree on everything that the rest of the command reads or
shows, and may differ in the registers that it does not read. -/
structure State.SameRun (s t : State) : Prop where
  ph : s.PH = t.PH
  op : s.OP = t.OP
  status : s.STATUS = t.STATUS
  out : s.OUT = t.OUT
  kv : s.KV = t.KV
  inputs : s.inputs = t.inputs
  /-- The store once it is valid. -/
  rk : s.KV = true → s.RK = t.RK
  /-- In `KS(i)`: the halves, the round keys written so far, and the block if one is to follow. -/
  schedule : ∀ i, s.PH = .ks i → s.C = t.C ∧ s.D = t.D ∧ (s.OP.getLsbD 2 = true → s.IN = t.IN) ∧
    ∀ j : Fin 16, j.val < i.val → readKey s.RK j = readKey t.RK j
  /-- In the driver's phases: the store and the block. -/
  driver : s.PH.inDriver = true → s.RK = t.RK ∧ s.IN = t.IN
  /-- From `Permuted` on: the Round State. -/
  halves : s.PH.roundsDone.isSome = true → s.L = t.L ∧ s.R = t.R

/-- Acceptance of a key-bearing command overwrites what the command reads, but for the store. -/
theorem loadKey_sameRun {s t : State} (hop : s.OP = t.OP) (hstatus : s.STATUS = t.STATUS)
    (hout : s.OUT = t.OUT) (hinputs : s.inputs = t.inputs)
    (hin : s.OP.getLsbD 2 = true → s.IN = t.IN) (key : Block) :
    (State.loadKey key s).SameRun (State.loadKey key t) where
  ph := rfl
  op := hop
  status := hstatus
  out := hout
  kv := rfl
  inputs := hinputs
  rk h := by simp [State.loadKey] at h
  schedule i h := by
    obtain rfl : 0 = i := by simpa [State.loadKey] using h
    exact ⟨rfl, rfl, hin, fun j hj => absurd hj (Nat.not_lt_zero _)⟩
  driver h := by simp [State.loadKey, Phase.inDriver] at h
  halves h := by simp [State.loadKey, Phase.roundsDone] at h

/-- A failed command is over: nothing is read any more. -/
theorem fail_sameRun {s t : State} (hop : s.OP = t.OP) (hkv : s.KV = t.KV)
    (hinputs : s.inputs = t.inputs) (hrk : s.KV = true → s.RK = t.RK) (code : Status) :
    (State.fail code s).SameRun (State.fail code t) where
  ph := rfl
  op := hop
  status := rfl
  out := rfl
  kv := hkv
  inputs := hinputs
  rk := hrk
  schedule i h := by simp at h
  driver h := by simp [Phase.inDriver] at h
  halves h := by simp [Phase.roundsDone] at h

/-- The driver starts from the store and the block. -/
theorem enter_initial_sameRun {s t : State} (hop : s.OP = t.OP) (hstatus : s.STATUS = t.STATUS)
    (hout : s.OUT = t.OUT) (hkv : s.KV = t.KV) (hinputs : s.inputs = t.inputs)
    (hrk : s.RK = t.RK) (hin : s.IN = t.IN) :
    (State.enter .initial s).SameRun (State.enter .initial t) where
  ph := rfl
  op := hop
  status := hstatus
  out := hout
  kv := hkv
  inputs := hinputs
  rk _ := hrk
  schedule i h := by simp at h
  driver _ := ⟨hrk, hin⟩
  halves h := by simp [Phase.roundsDone] at h

/-- A completed command shows its result and reads nothing any more. -/
theorem enter_final_sameRun {s t : State} (hop : s.OP = t.OP) (hstatus : s.STATUS = t.STATUS)
    (hout : s.OUT = t.OUT) (hkv : s.KV = t.KV) (hinputs : s.inputs = t.inputs)
    (hrk : s.KV = true → s.RK = t.RK) :
    (State.enter .final s).SameRun (State.enter .final t) where
  ph := rfl
  op := hop
  status := hstatus
  out := hout
  kv := hkv
  inputs := hinputs
  rk := hrk
  schedule i h := by simp at h
  driver h := by simp [Phase.inDriver] at h
  halves h := by simp [Phase.roundsDone] at h

/-- A command accepted by two cores that agree on `KV`, on a valid store and on the samples to come. -/
theorem accept_sameRun {s t : State} (hkv : s.KV = t.KV) (hrk : s.KV = true → s.RK = t.RK)
    (hinputs : s.inputs = t.inputs) (i : Instr) : (s.accept i).SameRun (t.accept i) := by
  have hblock : ∀ op block,
      (State.acceptBlock op block s).SameRun (State.acceptBlock op block t) := by
    intro op block
    cases h : s.KV with
    | true =>
      rw [acceptBlock_of_key h, acceptBlock_of_key (hkv ▸ h)]
      exact enter_initial_sameRun rfl rfl rfl hkv hinputs (hrk h) rfl
    | false =>
      rw [acceptBlock_of_no_key h, acceptBlock_of_no_key (hkv ▸ h)]
      exact fail_sameRun (s := s.beginCommand op) (t := t.beginCommand op) rfl hkv hinputs hrk _
  cases i with
  | keygen key =>
    exact loadKey_sameRun (s := s.beginCommand _) (t := t.beginCommand _) rfl rfl rfl hinputs
      (fun h => by simp at h) key
  | encrypt block key | decrypt block key =>
    exact loadKey_sameRun (s := { s.beginCommand _ with IN := block })
      (t := { t.beginCommand _ with IN := block }) rfl rfl rfl hinputs (fun _ => rfl) key
  | encblk block | decblk block => exact hblock _ block
  | reserved000 | reserved001 | reserved011 =>
    exact fail_sameRun (s := s.beginCommand _) (t := t.beginCommand _) rfl hkv hinputs hrk _

/-- The reset event leaves the same state of both. -/
theorem resetEvent_sameRun {s t : State} (h : s.inputs = t.inputs) :
    s.resetEvent.SameRun t.resetEvent := by
  have heq : s.resetEvent = t.resetEvent := by rw [State.resetEvent, State.resetEvent, h]
  rw [heq]
  exact ⟨rfl, rfl, rfl, rfl, rfl, rfl, fun _ => rfl, fun _ _ => ⟨rfl, rfl, fun _ => rfl, fun _ _ => rfl⟩,
    fun _ => ⟨rfl, rfl⟩, fun _ => ⟨rfl, rfl⟩⟩

/-- `KS-ROUND(i+1)` writes the same round key from the same halves. -/
theorem ksRound_sameRun {s t : State} {i : Fin 16} (h : s.SameRun t) (hph : s.PH = .ks i.castSucc) :
    (s.ksRound i).SameRun (t.ksRound i) := by
  obtain ⟨hc, hd, hin, hrk⟩ := h.schedule _ hph
  have hc' : (s.ksRound i).C = (t.ksRound i).C := by rw [ksRound_C, ksRound_C, hc]
  have hd' : (s.ksRound i).D = (t.ksRound i).D := by rw [ksRound_D, ksRound_D, hd]
  exact {
    ph := by rw [ksRound_PH, ksRound_PH]
    op := h.op
    status := h.status
    out := h.out
    kv := h.kv
    inputs := h.inputs
    rk := fun hkv => by rw [ksRound_RK, ksRound_RK, hc', hd', h.rk hkv]
    schedule := fun i' h' => by
      rw [ksRound_PH, Phase.ks.injEq] at h'
      refine ⟨hc', hd', hin, fun j hj => ?_⟩
      rw [readKey_ksRound, readKey_ksRound, hc', hd']
      split
      case isTrue => rfl
      case isFalse hji =>
        have hne : j.val ≠ i.val := fun e => hji (Fin.ext e)
        have hle : j.val < i.val + 1 := by rw [← h'] at hj; exact hj
        exact hrk j (by rw [Fin.val_castSucc]; omega)
    driver := fun h' => by simp [Phase.inDriver] at h'
    halves := fun h' => by simp [Phase.roundsDone] at h' }

/-- `KS-DONE` publishes the same store. -/
theorem ksDone_sameRun {s t : State} (h : s.SameRun t) (hph : s.PH = .ks (Fin.last 16)) :
    s.ksDone.SameRun t.ksDone := by
  obtain ⟨-, -, hin, hrk⟩ := h.schedule _ hph
  have hstore : s.RK = t.RK := by
    ext j hj : 1
    simpa [readKey] using hrk ⟨j, hj⟩ hj
  cases hblk : s.OP.getLsbD 2 with
  | true =>
    rw [ksDone_of_blk hblk, ksDone_of_blk (h.op ▸ hblk)]
    exact enter_initial_sameRun h.op h.status h.out rfl h.inputs hstore (hin hblk)
  | false =>
    rw [ksDone_of_not_blk hblk, ksDone_of_not_blk (h.op ▸ hblk)]
    exact enter_final_sameRun h.op rfl h.out rfl h.inputs fun _ => hstore

/-- `DRV-IP` reads the block. -/
theorem drvIp_sameRun {s t : State} (h : s.SameRun t) (hph : s.PH = .initial) :
    s.drvIp.SameRun t.drvIp := by
  obtain ⟨hrk, hin⟩ := h.driver (by rw [hph]; rfl)
  exact ⟨rfl, h.op, h.status, h.out, h.kv, h.inputs, h.rk,
    fun i h' => by simp [State.drvIp] at h', fun _ => ⟨hrk, hin⟩,
    fun _ => ⟨by simp [State.drvIp, hin], by simp [State.drvIp, hin]⟩⟩

/-- `DRV-ROUND(i+1)` reads the Round State and one round key. -/
theorem drvRound_sameRun {s t : State} (h : s.SameRun t) (hph : s.PH.inDriver = true)
    (hdone : s.PH.roundsDone.isSome = true) (i : Fin 16) : (s.drvRound i).SameRun (t.drvRound i) := by
  obtain ⟨hrk, hin⟩ := h.driver hph
  obtain ⟨hl, hr⟩ := h.halves hdone
  exact ⟨rfl, h.op, h.status, h.out, h.kv, h.inputs, h.rk,
    fun i h' => by simp [State.drvRound] at h', fun _ => ⟨hrk, hin⟩,
    fun _ => ⟨hr, by simp [State.drvRound, hl, hr, hrk, h.op]⟩⟩

/-- `DRV-PREFINAL` changes the phase alone. -/
theorem drvPreFinal_sameRun {s t : State} (h : s.SameRun t) (hph : s.PH = .round (Fin.last 15)) :
    s.drvPreFinal.SameRun t.drvPreFinal :=
  ⟨rfl, h.op, h.status, h.out, h.kv, h.inputs, h.rk, fun i h' => by simp [State.drvPreFinal] at h',
    fun _ => h.driver (by rw [hph]; rfl), fun _ => h.halves (by rw [hph]; rfl)⟩

/-- `DRV-FINAL` reads the Round State. -/
theorem drvFinal_sameRun {s t : State} (h : s.SameRun t) (hph : s.PH = .preFinal) :
    s.drvFinal.SameRun t.drvFinal := by
  obtain ⟨hl, hr⟩ := h.halves (by rw [hph]; rfl)
  exact enter_final_sameRun h.op rfl (by simp [hl, hr]) h.kv h.inputs h.rk

/-- The internal step of every phase reads only what the two states agree on. -/
theorem internalStep_sameRun {s t : State} (h : s.SameRun t) :
    s.internalStep.SameRun t.internalStep := by
  obtain ⟨-, hs⟩ | ⟨i, hph, hs⟩ | ⟨hph, hs⟩ | ⟨hph, hs⟩ | ⟨i, ⟨hph, hdone⟩, hs⟩ | ⟨hph, hs⟩ |
    ⟨hph, hs⟩ := internalStep_cases s.PH <;> rw [hs s rfl, hs t h.ph.symm]
  · exact h
  · exact ksRound_sameRun h hph
  · exact ksDone_sameRun h hph
  · exact drvIp_sameRun h hph
  · exact drvRound_sameRun h hph (by rw [hdone]; rfl) i
  · exact drvPreFinal_sameRun h hph
  · exact drvFinal_sameRun h hph

/-- The passing of a sample. -/
theorem advance_sameRun {s t : State} (h : s.SameRun t) : s.advance.SameRun t.advance :=
  ⟨h.ph, h.op, h.status, h.out, h.kv, congrArg List.tail h.inputs, h.rk, h.schedule, h.driver,
    h.halves⟩

/-- A step of two cores in the same command: the same samples, so the same resets. -/
theorem busyTick_sameRun {s t : State} (h : s.SameRun t) : s.busyTick.SameRun t.busyTick := by
  have hport : t.port = s.port := by rw [State.port, State.port, h.inputs]
  have hadv := advance_sameRun h
  cases hrst : s.port.rst with
  | true =>
    rw [busyTick_of_reset hrst, busyTick_of_reset (hport ▸ hrst)]
    exact resetEvent_sameRun hadv.inputs
  | false =>
    rw [busyTick_of_no_reset hrst, busyTick_of_no_reset (hport ▸ hrst)]
    exact internalStep_sameRun hadv

/-- Both commands end after as many steps, in the same command's states again. -/
theorem finish_sameRun {s t : State} (h : s.SameRun t) (n : Nat) :
    (State.finish n s).SameRun (State.finish n t) := by
  induction n generalizing s t with
  | zero => exact h
  | succ n ih =>
    cases hready : s.PH.ready with
    | true =>
      have hready' : t.PH.ready = true := h.ph ▸ hready
      rwa [finish_of_ready hready, finish_of_ready hready']
    | false =>
      have hready' : t.PH.ready = false := h.ph ▸ hready
      rw [finish_of_busy hready, finish_of_busy hready']
      exact ih (busyTick_sameRun h)

/-- The outputs within the same command. -/
theorem sameRun_outputs {s t : State} (h : s.SameRun t) : s.outputs = t.outputs := by
  rw [State.outputs, State.outputs, h.ph, h.status, h.out]

/-- Settles O29: acceptance brings the two cores into the same command, and no step of a command reads
what they differ in. -/
theorem leftoverValuesHaveNoInfluence : Obligations.LeftoverValuesHaveNoInfluence := by
  intro i s t hready hready' hkv hrk hinputs
  have hrun := finish_sameRun (accept_sameRun hkv hrk hinputs i) maxInternalSteps
  exact ⟨_, _, exec_of_ready i hready, exec_of_ready i hready', sameRun_outputs hrun, hrun.kv, hrun.rk,
    hrun.ph, exec_ready hready (exec_of_ready i hready), hrun.inputs⟩

end Sys2Proof.Machine
end

section
/-! The Bit-Vector Utilities and the Table Repository (40_bitvector_utilities.md,
41_table_repository.md). -/

namespace Sys2Proof.Machine

/-- Settles O34: each utility read at one index. -/
theorem utilitiesBitByBit : Obligations.UtilitiesBitByBit := by
  refine ⟨fun m n table x i hlen hi => getMsbD_permute hlen x hi, fun n a b i _ => ?_,
    fun w b n i hi => getMsbD_rotateLeft' b n i hi⟩
  rw [blockBit, BitVec.getMsbD_xor]
  rfl

/-- Two tables of which the second undoes the first undo each other as permutations. -/
theorem permute_permute_of_inverse {n : Nat} {table inverse : List Nat} (hlen : table.length = n)
    (hlen' : inverse.length = n) (hlt : ∀ idx ∈ inverse, idx < n)
    (h : ∀ j < n, table.getD (inverse.getD j 0) 0 = j) (x : BitVec n) :
    permute n inverse (permute n table x) = x := by
  apply eq_of_getMsbD
  intro i hi
  have hi' : inverse.getD i 0 < n := by
    rw [List.getD_eq_getElem _ _ (by omega)]
    exact hlt _ (List.getElem_mem _)
  rw [getMsbD_permute hlen' _ hi, getMsbD_permute hlen _ hi', h i hi]

/-- `FP` undoes `IP` (R124). -/
theorem finalPermutation_initialPermutation (x : Block) :
    finalPermutation (initialPermutation x) = x :=
  permute_permute_of_inverse tableIP_length tableFP_length tableFP_lt tableIP_tableFP x

/-- `IP` undoes `FP` (R124). -/
theorem initialPermutation_finalPermutation (x : Block) :
    initialPermutation (finalPermutation x) = x :=
  permute_permute_of_inverse tableFP_length tableIP_length tableIP_lt tableFP_tableIP x

/-- Settles O37: the two tables are inverse to each other, in both orders. -/
theorem initialAndFinalPermutationAreInverse : Obligations.InitialAndFinalPermutationAreInverse :=
  fun x => ⟨finalPermutation_initialPermutation x, initialPermutation_finalPermutation x⟩

/-- `E` repeats the outer bits of each nibble and names the inner bits once (R125, R131). -/
theorem tableE_count : ∀ j < 32, tableE.count j = if j % 4 = 0 ∨ j % 4 = 3 then 2 else 1 := by decide

/-- `PC1` drops the last bit of each byte and names every other bit once (R127, R131). -/
theorem tablePC1_count : ∀ j < 64, tablePC1.count j = if j % 8 = 7 then 0 else 1 := by decide

/-- Every S-box has four rows of sixteen cells of four bits (R129). -/
theorem sBoxes_shape : (∀ box ∈ sBoxes, box.length = 4) ∧
    ∀ box ∈ sBoxes, ∀ row ∈ box, row.length = 16 ∧ ∀ v ∈ row, v < 16 := by decide

/-- Every row of an S-box holds every value once (R131). -/
theorem sBoxes_rows : ∀ box ∈ sBoxes, ∀ row ∈ box, ∀ v < 16, row.count v = 1 := by decide +kernel

/-- Settles O36: each invariant by inspection of the literals, but for the one about every block. -/
theorem tablesMeetTheirInvariants : Obligations.TablesMeetTheirInvariants := by
  have h64 : ∀ idx ∈ tableIP ++ tableFP ++ tablePC1, idx < 64 :=
    List.forall_mem_append.2 ⟨List.forall_mem_append.2 ⟨tableIP_lt, tableFP_lt⟩, tablePC1_lt⟩
  have h32 : ∀ idx ∈ tableE ++ tableP, idx < 32 := List.forall_mem_append.2 ⟨tableE_lt, tableP_lt⟩
  obtain ⟨hboxes, hrows⟩ := sBoxes_shape
  exact ⟨h64, h32, tablePC2_lt, ⟨rfl, rfl, rfl, rfl, rfl, rfl⟩, finalPermutation_initialPermutation,
    tableE_count, tablePC1_count, rfl, hboxes, hrows, sBoxes_rows, rfl⟩

end Sys2Proof.Machine
end

section
/-! The key schedule as a function of the key (42_key_schedule.md R143, R149). -/

namespace Sys2Proof.Machine

/-! ### The shifts -/

/-- One more shift is added to the sum. -/
theorem sum_take_shiftSchedule {i : Nat} (h : i < 16) :
    (shiftSchedule.take (i + 1)).sum = (shiftSchedule.take i).sum + shiftAmount i := by
  rw [List.sum_take_succ _ _ (show i < shiftSchedule.length from h), shiftAmount,
    List.getD_eq_getElem _ _ (show i < shiftSchedule.length from h)]

/-- The halves after round `i` are the first halves rotated by the sum of the shifts (R143). -/
theorem scheduleState_eq_rotateLeft (key : Block) {i : Nat} (h : i ≤ 16) :
    scheduleState key i = (rotateLeft (keyC0 key) (shiftSchedule.take i).sum,
      rotateLeft (keyD0 key) (shiftSchedule.take i).sum) := by
  induction i with
  | zero =>
    rw [List.take_zero, List.sum_nil, rotateLeft_of_dvd _ rfl, rotateLeft_of_dvd _ rfl]
    rfl
  | succ i ih =>
    rw [scheduleState, ih (by omega), rotateLeft_rotateLeft, rotateLeft_rotateLeft,
      sum_take_shiftSchedule (by omega)]

/-- Settles O38: the shifts add up, and all sixteen add up to the width of a half. -/
theorem keyScheduleShiftsAccumulate : Obligations.KeyScheduleShiftsAccumulate := by
  intro key
  refine ⟨fun i hi => scheduleState_eq_rotateLeft key hi, ?_⟩
  have hsum : (shiftSchedule.take 16).sum = 28 := shiftSchedule_sum
  rw [scheduleState_eq_rotateLeft key (Nat.le_refl 16), hsum, rotateLeft_of_dvd _ (Nat.mod_self 28),
    rotateLeft_of_dvd _ (Nat.mod_self 28)]

/-! ### What the round keys depend on -/

/-- The whole schedule depends on the key through Permuted-Choice-1 alone. -/
theorem scheduleState_congr {k k' : Block} (h : permutedKey k = permutedKey k') (i : Nat) :
    scheduleState k i = scheduleState k' i := by
  induction i with
  | zero => rw [scheduleState, scheduleState, keyC0, keyD0, h]; rfl
  | succ i ih => rw [scheduleState, ih, scheduleState]

/-- Round keys that agree round by round. -/
theorem generateRoundKeys_congr {k k' : Block}
    (h : ∀ i < 16, scheduledKey k (i + 1) = scheduledKey k' (i + 1)) :
    generateRoundKeys k = generateRoundKeys k' := by
  ext j hj : 1
  simpa [generateRoundKeys] using h j hj

/-- Settles O39: Permuted-Choice-1 names no parity bit. -/
theorem parityBitsAreIgnored : Obligations.ParityBitsAreIgnored := by
  intro k k' h
  have hpermuted : permutedKey k = permutedKey k' :=
    permute_congr fun idx hidx => h idx (tablePC1_lt idx hidx) (tablePC1_no_parity idx hidx)
  exact generateRoundKeys_congr fun i _ => by
    rw [scheduledKey, scheduledKey, scheduleState_congr hpermuted]

/-- A half whose bits are all equal is fixed by every rotation. -/
theorem rotateLeft_of_constant {c : KeyHalf} (h : c = 0 ∨ c = BitVec.allOnes 28) (n : Nat) :
    rotateLeft c n = c := by
  apply eq_of_getMsbD
  intro i hi
  have hmod : (i + n) % 28 < 28 := Nat.mod_lt _ (by decide)
  rw [getMsbD_rotateLeft' c n i hi]
  obtain rfl | rfl := h
  · simp
  · rw [BitVec.getMsbD_allOnes, BitVec.getMsbD_allOnes, decide_eq_true hmod, decide_eq_true hi]

/-- With constant halves the schedule stands still. -/
theorem scheduleState_of_constant {key : Block}
    (hc : keyC0 key = 0 ∨ keyC0 key = BitVec.allOnes 28)
    (hd : keyD0 key = 0 ∨ keyD0 key = BitVec.allOnes 28) (i : Nat) :
    scheduleState key i = (keyC0 key, keyD0 key) := by
  induction i with
  | zero => rfl
  | succ i ih => rw [scheduleState, ih, rotateLeft_of_constant hc, rotateLeft_of_constant hd]

/-- So all sixteen round keys are one (R149 (c)). -/
theorem roundKeys_of_constant {key : Block}
    (hc : keyC0 key = 0 ∨ keyC0 key = BitVec.allOnes 28)
    (hd : keyD0 key = 0 ∨ keyD0 key = BitVec.allOnes 28) (i j : Fin 16) :
    (generateRoundKeys key).get i = (generateRoundKeys key).get j := by
  have h : ∀ i : Fin 16, (generateRoundKeys key).get i = roundKeyOf (keyC0 key) (keyD0 key) :=
    fun i => by simp [generateRoundKeys, scheduledKey, scheduleState_of_constant hc hd]
  rw [h i, h j]

/-! ### The inverted key -/

/-- Under the inverted key both halves are inverted in every round. -/
theorem scheduleState_not (key : Block) (i : Nat) :
    scheduleState (~~~key) i = (~~~(scheduleState key i).1, ~~~(scheduleState key i).2) := by
  induction i with
  | zero =>
    have hpermuted : permutedKey (~~~key) = ~~~permutedKey key :=
      permute_not tablePC1_length tablePC1_lt key
    simp only [scheduleState, keyC0, keyD0, hpermuted]
    rw [slice_not _ (by decide), slice_not _ (by decide)]
  | succ i ih =>
    simp only [scheduleState, ih, rotateLeft_not]

/-- The round key of inverted halves is inverted. -/
theorem roundKeyOf_not (c d : KeyHalf) : roundKeyOf (~~~c) (~~~d) = ~~~roundKeyOf c d := by
  rw [roundKeyOf, ← BitVec.not_append, permute_not tablePC2_length tablePC2_lt]
  rfl

/-- All sixteen round keys are inverted. -/
theorem generateRoundKeys_not (key : Block) :
    generateRoundKeys (~~~key) = (generateRoundKeys key).map (~~~·) := by
  ext j hj : 1
  simp [generateRoundKeys, scheduledKey, scheduleState_not, roundKeyOf_not]

end Sys2Proof.Machine
end

section
/-! The round function and the block driver as functions (43_round_function.md R166, 44_block_driver.md
R177, 45_entry_points.md R192). -/

namespace Sys2Proof.Machine

/-! ### The round function -/

/-- The round function depends on `E(right) XOR key` alone (R166). -/
theorem feistelF_congr {r r' : Half} {k k' : RoundKey} (h : expand r ^^^ k = expand r' ^^^ k') :
    feistelF r k = feistelF r' k' := by
  rw [feistelF, h, feistelF]

/-- Inverting every bit of both operands cancels in the XOR. -/
theorem feistelF_not (r : Half) (k : RoundKey) : feistelF (~~~r) (~~~k) = feistelF r k := by
  have hexpand : expand (~~~r) = ~~~expand r := permute_not tableE_length tableE_lt r
  apply feistelF_congr
  rw [hexpand, ← BitVec.not_xor_left, ← BitVec.not_xor_right, BitVec.not_not]

/-- Settles O43: both clauses are about the XOR that the substitution reads. -/
theorem roundFunctionUnchangedByInversion : Obligations.RoundFunctionUnchangedByInversion :=
  ⟨fun _ _ _ _ h => feistelF_congr h, feistelF_not⟩

/-! ### The other mode runs the rounds backwards -/

/-- The mode that undoes a mode. -/
def otherMode : Mode → Mode
  | .encrypt => .decrypt
  | .decrypt => .encrypt

/-- The reversed key order: round `i + 1` of one mode uses the round key of round `16 - i` of the
other (R173). -/
theorem keyIndex_otherMode (mode : Mode) {i : Nat} (h : i < 16) :
    keyIndex (otherMode mode) (Fin.ofNat 16 i) = keyIndex mode (Fin.ofNat 16 (15 - i)) := by
  cases mode with
  | encrypt => ext; simp [keyIndex, otherMode]; omega
  | decrypt => ext; simp [keyIndex, otherMode]; omega

/-- A Feistel round on exchanged halves undoes the round with the same key (R177). -/
theorem feistelRound_swap (k : RoundKey) (lr : Half × Half) :
    feistelRound k (feistelRound k lr).swap = lr.swap := by
  simp [feistelRound, Prod.swap]

/-- The first halves of a processed block are the last halves, exchanged: the permutations cancel and
the pre-final block exchanges the halves (R172, R175, R176). -/
theorem initialHalves_processBlock (x : Block) (rk : RoundKeys) (mode : Mode) :
    initialHalves (processBlock x rk mode) = (roundState rk mode x 16).swap := by
  rw [initialHalves, processBlock, initialPermutation_finalPermutation, preFinalBlock,
    slice_append_left, slice_append_right]
  rfl

/-- The Round States of the other mode on the processed block are those of the mode, exchanged and in
reverse (R177). -/
theorem roundState_otherMode (x : Block) (rk : RoundKeys) (mode : Mode) {i : Nat} (h : i ≤ 16) :
    roundState rk (otherMode mode) (processBlock x rk mode) i =
      (roundState rk mode x (16 - i)).swap := by
  induction i with
  | zero => exact initialHalves_processBlock x rk mode
  | succ i ih =>
    have hround : roundState rk mode x (16 - i) = feistelRound
        (readKey rk (keyIndex mode (Fin.ofNat 16 (15 - i)))) (roundState rk mode x (15 - i)) := by
      rw [show 16 - i = (15 - i) + 1 by omega, roundState]
    rw [roundState, ih (by omega), keyIndex_otherMode mode (by omega), hround, feistelRound_swap,
      show 16 - (i + 1) = 15 - i by omega]

/-- Processing in a mode and then in the other one gives the block back. -/
theorem processBlock_otherMode (x : Block) (rk : RoundKeys) (mode : Mode) :
    processBlock (processBlock x rk mode) rk (otherMode mode) = x := by
  have hpre : preFinalBlock (initialHalves x).swap = initialPermutation x :=
    slice_append_slice (m := 32) (n := 32) (initialPermutation x)
  rw [processBlock, roundState_otherMode x rk mode (Nat.le_refl 16), Nat.sub_self, roundState, hpre,
    finalPermutation_initialPermutation]

/-- Settles O44: the two modes are each other's other mode. -/
theorem processBlockModesAreInverse : Obligations.ProcessBlockModesAreInverse :=
  fun x rk => ⟨processBlock_otherMode x rk .encrypt, processBlock_otherMode x rk .decrypt⟩

/-- Settles O45: decryption is the other mode of encryption. -/
theorem decryptionMirrorsEncryption : Obligations.DecryptionMirrorsEncryption :=
  fun x rk _ hi => roundState_otherMode x rk .encrypt hi

/-- Settles O47: `decrypt` and `encrypt` run the two modes under one schedule. -/
theorem roundTrip : Obligations.RoundTrip :=
  fun x key => processBlockModesAreInverse x (generateRoundKeys key)

/-! ### Equal round keys -/

/-- With equal round keys their order does not matter. -/
theorem processBlock_of_equal_keys {rk : RoundKeys} (h : ∀ i j : Fin 16, rk.get i = rk.get j)
    (x : Block) : processBlock x rk .encrypt = processBlock x rk .decrypt := by
  have hstate : ∀ n, roundState rk .encrypt x n = roundState rk .decrypt x n := by
    intro n
    induction n with
    | zero => rfl
    | succ n ih =>
      rw [roundState, ih, roundState]
      exact congrArg (feistelRound · _) (h _ _)
  rw [processBlock, hstate, processBlock]

/-- Settles O46: the modes are one function, so undoing by the other mode is undoing by the same. -/
theorem equalRoundKeysMakeModesEqual : Obligations.EqualRoundKeysMakeModesEqual := by
  intro x rk h
  refine ⟨processBlock_of_equal_keys h x, ?_⟩
  rw [processBlock_of_equal_keys h (processBlock x rk .encrypt)]
  exact processBlock_otherMode x rk .encrypt

/-- Settles O40: constant halves make the round keys equal, and equal round keys the modes. -/
theorem constantHalvesGiveEqualRoundKeys : Obligations.ConstantHalvesGiveEqualRoundKeys := by
  intro key hc hd
  have hkeys := roundKeys_of_constant hc hd
  exact ⟨hkeys, processBlock_of_equal_keys hkeys⟩

/-! ### Inverted operands -/

/-- A Feistel round on inverted halves under the inverted key. -/
theorem feistelRound_not (k : RoundKey) (lr : Half × Half) :
    feistelRound (~~~k) (~~~lr.1, ~~~lr.2) =
      (~~~(feistelRound k lr).1, ~~~(feistelRound k lr).2) := by
  simp only [feistelRound, feistelF_not, BitVec.not_xor_left]

/-- Under the inverted round keys an inverted block has inverted Round States. -/
theorem roundState_not (rk : RoundKeys) (mode : Mode) (x : Block) (n : Nat) :
    roundState (rk.map (~~~·)) mode (~~~x) n =
      (~~~(roundState rk mode x n).1, ~~~(roundState rk mode x n).2) := by
  induction n with
  | zero =>
    have hip : initialPermutation (~~~x) = ~~~initialPermutation x :=
      permute_not tableIP_length tableIP_lt x
    simp only [roundState, initialHalves, hip]
    rw [slice_not _ (by decide), slice_not _ (by decide)]
  | succ n ih =>
    have hkey : ∀ i : Fin 16, readKey (rk.map (~~~·)) i = ~~~readKey rk i := fun i => by
      simp [readKey]
    rw [roundState, ih, hkey, feistelRound_not, roundState]

/-- And the processed block is inverted. -/
theorem processBlock_not (x : Block) (rk : RoundKeys) (mode : Mode) :
    processBlock (~~~x) (rk.map (~~~·)) mode = ~~~processBlock x rk mode := by
  rw [processBlock, roundState_not, preFinalBlock, ← BitVec.not_append, finalPermutation,
    permute_not tableFP_length tableFP_lt]
  rfl

/-- Settles O48: the inverted key has the inverted round keys. -/
theorem invertingKeyAndInputInvertsOutput : Obligations.InvertingKeyAndInputInvertsOutput := by
  intro x key
  rw [encryptBlock, decryptBlock, generateRoundKeys_not, processBlock_not, processBlock_not]
  exact ⟨rfl, rfl⟩

/-- Settles O49: the three values, computed. -/
theorem knownAnswers : Obligations.KnownAnswers := by
  unfold Obligations.KnownAnswers
  decide +kernel

end Sys2Proof.Machine
end

section
/-! The function level of the source on the bits of blocks: it raises no condition and returns the bits of
the fixed-width functions' results (00_scope.md R13, 43_round_function.md R165). -/

namespace Sys2Proof.Machine

/-! ### The round function -/

/-- The consecutive sub-blocks of one width, put together again. -/
theorem flatten_rawSlices (l : RawBlock) (w k : Nat) :
    ((List.range k).map fun i => rawSlice l (w * i) w).flatten = l.take (w * k) := by
  induction k with
  | zero => simp
  | succ k ih =>
    rw [List.range_succ, List.map_append, List.flatten_append, ih, Nat.mul_succ, List.take_add]
    simp [rawSlice]

/-- The substitution (R163): the eight nibbles are the sub-blocks of the fixed-width result. -/
theorem rawSubstitute_rawOfBits (x : RoundKey) :
    rawSubstitute (rawOfBits x) = rawOfBits (substitute x) := by
  have hnibble : ∀ i ∈ List.range 8, rawSBox i (rawSlice (rawOfBits x) (6 * i) 6) =
      rawSlice (rawOfBits (substitute x)) (4 * i) 4 := by
    intro i hi
    have hlt : i < 8 := List.mem_range.1 hi
    rw [rawSlice_rawOfBits x (by omega), rawSlice_rawOfBits _ (by omega), slice_substitute x hlt]
    exact rawSBox_rawOfBits hlt (chunk x i)
  rw [rawSubstitute, List.map_congr_left hnibble, flatten_rawSlices,
    List.take_of_length_le (by simp)]

/-- `feistel_f` (R160). -/
theorem rawFeistelF_rawOfBits (r : Half) (k : RoundKey) :
    rawFeistelF (rawOfBits r) (rawOfBits k) = .ok (rawOfBits (feistelF r k)) := by
  simp only [rawFeistelF, rawPermute_rawOfBits r tableE_length tableE_lt, rawXor_rawOfBits,
    rawSubstitute_rawOfBits, rawPermute_rawOfBits _ tableP_length tableP_lt]
  rfl

/-- Settles O50: each of the four steps gives the bits of the fixed-width step. -/
theorem roundFunctionAgreesWithSource : Obligations.RoundFunctionAgreesWithSource :=
  rawFeistelF_rawOfBits

/-! ### The key schedule -/

/-- The loop of `generate_round_keys` after `n` rounds (R143). -/
theorem rawSchedule_rawOfBits (key : Block) (n : Nat) :
    rawSchedule (rawOfBits (permutedKey key)) n =
      .ok (Vector.ofFn fun i : Fin n => rawOfBits (scheduledKey key (i.val + 1)),
        rawOfBits (scheduleState key n).1, rawOfBits (scheduleState key n).2) := by
  induction n with
  | zero =>
    rw [rawSchedule, rawSlice_rawOfBits _ (by decide), rawSlice_rawOfBits _ (by decide)]
    rfl
  | succ n ih =>
    simp only [rawSchedule, ih, rawRotateLeft_rawOfBits (show 0 < 28 by decide), rawOfBits_append,
      rawPermute_rawOfBits _ tablePC2_length tablePC2_lt]
    rw [Vector.ofFn_succ]
    rfl

/-- `generate_round_keys` (R140). -/
theorem rawGenerateRoundKeys_rawOfBits (key : Block) :
    rawGenerateRoundKeys (rawOfBits key) = .ok ((generateRoundKeys key).map rawOfBits) := by
  have hpermuted : permute 56 tablePC1 key = permutedKey key := rfl
  simp only [rawGenerateRoundKeys, check_rawOfBits, hpermuted, rawSchedule_rawOfBits,
    rawPermute_rawOfBits key tablePC1_length tablePC1_lt]
  rw [generateRoundKeys, Vector.map_ofFn]
  rfl

/-! ### The block driver -/

/-- The rounds of `process_block` (R173, R174). -/
theorem rawRounds_rawOfBits (rk : RoundKeys) (mode : Mode) (x : Block) (n : Nat) :
    rawRounds (rk.map rawOfBits) mode (rawOfBits (initialPermutation x)) n =
      .ok (rawOfBits (roundState rk mode x n).1, rawOfBits (roundState rk mode x n).2) := by
  induction n with
  | zero =>
    rw [rawRounds, rawSlice_rawOfBits _ (by decide), rawSlice_rawOfBits _ (by decide)]
    rfl
  | succ n ih =>
    have hkey : ∀ i : Fin 16, (rk.map rawOfBits)[i] = rawOfBits (readKey rk i) := fun i => by
      simp [readKey]
    simp only [rawRounds, ih, hkey, rawFeistelF_rawOfBits, rawXor_rawOfBits]
    rfl

/-- `process_block` (R170). -/
theorem rawProcessBlock_rawOfBits (x : Block) (rk : RoundKeys) (mode : Mode) :
    rawProcessBlock (rawOfBits x) (rk.map rawOfBits) mode = .ok (rawOfBits (processBlock x rk mode)) := by
  have hpermuted : permute 64 tableIP x = initialPermutation x := rfl
  simp only [rawProcessBlock, check_rawOfBits, hpermuted, rawRounds_rawOfBits, rawOfBits_append,
    rawPermute_rawOfBits x tableIP_length tableIP_lt,
    rawPermute_rawOfBits _ tableFP_length tableFP_lt]
  rfl

/-! ### The entry points -/

/-- The source's cipher in either mode: the key schedule, then the driver under its round keys. -/
def rawCipher (mode : Mode) (block key : RawBlock) : Except Condition RawBlock :=
  (rawGenerateRoundKeys key).bind fun keys => rawProcessBlock block keys mode

/-- `encrypt` (R190). -/
theorem rawEncrypt_eq_rawCipher : rawEncrypt = rawCipher .encrypt := by
  funext block key
  rw [rawEncrypt, rawCipher]
  cases rawGenerateRoundKeys key <;> rfl

/-- `decrypt` (R191). -/
theorem rawDecrypt_eq_rawCipher : rawDecrypt = rawCipher .decrypt := by
  funext block key
  rw [rawDecrypt, rawCipher]
  cases rawGenerateRoundKeys key <;> rfl

/-- The cipher on the bits of two blocks. -/
theorem rawCipher_rawOfBits (mode : Mode) (x key : Block) :
    rawCipher mode (rawOfBits x) (rawOfBits key) =
      .ok (rawOfBits (processBlock x (generateRoundKeys key) mode)) := by
  rw [rawCipher, rawGenerateRoundKeys_rawOfBits]
  exact rawProcessBlock_rawOfBits x _ mode

/-- Settles O51: the four functions of the source, each on the bits of blocks. -/
theorem cipherAgreesWithSource : Obligations.CipherAgreesWithSource := by
  intro x key rk mode
  refine ⟨rawGenerateRoundKeys_rawOfBits key, rawProcessBlock_rawOfBits x rk mode, ?_, ?_⟩
  · rw [rawEncrypt_eq_rawCipher]
    exact rawCipher_rawOfBits .encrypt x key
  · rw [rawDecrypt_eq_rawCipher]
    exact rawCipher_rawOfBits .decrypt x key

end Sys2Proof.Machine
end

section
/-! Calls of the source with operands of any form: which condition a malformed call raises
(60_exceptions.md R219), and the command that stands for a well-formed one (30_encoding.md R100). -/

namespace Sys2Proof.Machine

/-! ### Operands -/

/-- An operand passes the check exactly when it is the bits of a block. -/
theorem check_cases (b : RawBlock) :
    (∃ e, RawBlock.check b = .error e) ∨ ∃ x : Block, b = rawOfBits x := by
  cases h : RawBlock.check b with
  | error e => exact .inl ⟨e, rfl⟩
  | ok _ =>
    obtain ⟨hlen, hbits⟩ := (check_eq_ok_iff b).1 h
    exact .inr ⟨_, (rawOfBits_toBlock hlen hbits).symm⟩

/-- A block is determined by its bits. -/
theorem rawOfBits_injective {n : Nat} {x y : BitVec n} (h : rawOfBits x = rawOfBits y) : x = y := by
  apply eq_of_getMsbD
  intro i hi
  have hbit : (x.getMsbD i).toNat = (y.getMsbD i).toNat := by
    rw [← rawOfBits_getD x hi, ← rawOfBits_getD y hi, h]
  have hinj : ∀ a b : Bool, a.toNat = b.toNat → a = b := by decide
  exact hinj _ _ hbit

/-- Reading the bits of a block gives the block. -/
theorem toBlock_rawOfBits (x : Block) : RawBlock.toBlock (rawOfBits x) = x :=
  rawOfBits_injective (rawOfBits_toBlock (rawOfBits_length x) (rawOfBits_bit x))

/-! ### Malformed calls -/

/-- `generate_round_keys` raises what the key's check raises (R141). -/
theorem rawGenerateRoundKeys_of_check {key : RawBlock} {e : Condition}
    (h : RawBlock.check key = .error e) : rawGenerateRoundKeys key = .error e := by
  rw [rawGenerateRoundKeys, h]

/-- `process_block` raises what the input's check raises (R171). -/
theorem rawProcessBlock_of_check {block : RawBlock} {e : Condition}
    (h : RawBlock.check block = .error e) (keys : Vector RawBlock 16) (mode : Mode) :
    rawProcessBlock block keys mode = .error e := by
  rw [rawProcessBlock, h]

/-- The cipher raises what the key's check raises (R190). -/
theorem rawCipher_of_check_key {key : RawBlock} {e : Condition} (h : RawBlock.check key = .error e)
    (mode : Mode) (block : RawBlock) : rawCipher mode block key = .error e := by
  rw [rawCipher, rawGenerateRoundKeys_of_check h]
  rfl

/-- Under a well-formed key it raises what the block's check raises (R190, R219). -/
theorem rawCipher_of_check_block {block : RawBlock} {e : Condition}
    (h : RawBlock.check block = .error e) (mode : Mode) (k : Block) :
    rawCipher mode block (rawOfBits k) = .error e := by
  rw [rawCipher, rawGenerateRoundKeys_rawOfBits]
  exact rawProcessBlock_of_check h _ mode

/-- Settles O52: the key's check decides first, then the block's, and each looks at the length first. -/
theorem malformedCallsRaiseTheFirstCondition : Obligations.MalformedCallsRaiseTheFirstCondition := by
  intro cipher block key hcipher
  obtain ⟨mode, rfl⟩ : ∃ mode, cipher = rawCipher mode := by
    obtain rfl | rfl := hcipher
    · exact ⟨.encrypt, rawEncrypt_eq_rawCipher⟩
    · exact ⟨.decrypt, rawDecrypt_eq_rawCipher⟩
  refine ⟨fun hlen => rawCipher_of_check_key (check_of_length hlen) mode block,
    fun hlen hvalue => rawCipher_of_check_key (check_of_value hlen hvalue) mode block,
    fun hlen hbits hlen' => ?_, fun hlen hbits hlen' hvalue => ?_, fun hlen hbits hlen' hbits' => ?_⟩
  all_goals rw [← rawOfBits_toBlock hlen hbits]
  · exact rawCipher_of_check_block (check_of_length hlen') mode _
  · exact rawCipher_of_check_block (check_of_value hlen' hvalue) mode _
  · rw [← rawOfBits_toBlock hlen' hbits', rawCipher_rawOfBits]
    exact ⟨_, rfl, rawOfBits_length _⟩

/-! ### Calls and the commands that stand for them -/

/-- A wrapper's answer to a call of `generate_round_keys`. -/
theorem present_generateRoundKeys (key : RawBlock) :
    (∃ e, rawGenerateRoundKeys key = .error e ∧
      Call.present (.generateRoundKeys key) = .error e) ∨
    ∃ k, rawGenerateRoundKeys key = .ok ((generateRoundKeys k).map rawOfBits) ∧
      Call.present (.generateRoundKeys key) = .ok (.keygen k) := by
  obtain ⟨e, h⟩ | ⟨k, rfl⟩ := check_cases key
  · exact .inl ⟨e, rawGenerateRoundKeys_of_check h, by simp [Call.present, Call.check, h]⟩
  · exact .inr ⟨k, rawGenerateRoundKeys_rawOfBits k,
      by simp [Call.present, Call.check, Call.command, toBlock_rawOfBits]⟩

/-- The command that processes a block under the stored round keys. -/
def blockCommand : Mode → Block → Instr
  | .encrypt, x => .encblk x
  | .decrypt, x => .decblk x

/-- A wrapper's answer to a call of `process_block`. -/
theorem present_processBlock (block : RawBlock) (rk : RoundKeys) (mode : Mode) :
    (∃ e, rawProcessBlock block (rk.map rawOfBits) mode = .error e ∧
      Call.present (.processBlock block mode) = .error e) ∨
    ∃ x, rawProcessBlock block (rk.map rawOfBits) mode = .ok (rawOfBits (processBlock x rk mode)) ∧
      Call.present (.processBlock block mode) = .ok (blockCommand mode x) := by
  obtain ⟨e, h⟩ | ⟨x, rfl⟩ := check_cases block
  · exact .inl ⟨e, rawProcessBlock_of_check h _ mode, by simp [Call.present, Call.check, h]⟩
  · refine .inr ⟨x, rawProcessBlock_rawOfBits x rk mode, ?_⟩
    cases mode <;> simp [Call.present, Call.check, Call.command, toBlock_rawOfBits, blockCommand]

/-- The call of `encrypt` or `decrypt`. -/
def cipherCall : Mode → RawBlock → RawBlock → Call
  | .encrypt, block, key => .encrypt block key
  | .decrypt, block, key => .decrypt block key

/-- The command that stands for it. -/
def cipherCommand : Mode → Block → Block → Instr
  | .encrypt, x, k => .encrypt x k
  | .decrypt, x, k => .decrypt x k

/-- A wrapper's answer to a call of `encrypt` or `decrypt`. -/
theorem present_cipherCall (mode : Mode) (block key : RawBlock) :
    (∃ e, rawCipher mode block key = .error e ∧
      Call.present (cipherCall mode block key) = .error e) ∨
    ∃ x k, rawCipher mode block key =
        .ok (rawOfBits (processBlock x (generateRoundKeys k) mode)) ∧
      Call.present (cipherCall mode block key) = .ok (cipherCommand mode x k) := by
  obtain ⟨e, h⟩ | ⟨k, rfl⟩ := check_cases key
  · refine .inl ⟨e, rawCipher_of_check_key h mode block, ?_⟩
    cases mode <;> simp [Call.present, Call.check, cipherCall, h]
  · obtain ⟨e, h⟩ | ⟨x, rfl⟩ := check_cases block
    · refine .inl ⟨e, rawCipher_of_check_block h mode k, ?_⟩
      cases mode <;> simp [Call.present, Call.check, cipherCall, h]
    · refine .inr ⟨x, k, rawCipher_rawOfBits mode x k, ?_⟩
      cases mode <;>
        simp [Call.present, Call.check, Call.command, cipherCall, cipherCommand, toBlock_rawOfBits]

/-! ### The commands' responses -/

/-- The response of `KEYGEN`, and the store it leaves. -/
theorem keygen_response {s : State} (hready : s.PH.ready = true) (hr : s.noResetFor 36 = true)
    (k : Block) : ∃ t, exec (.keygen k) s = .next t ∧ t.outputs.rspStatus = 1 ∧
      t.outputs.rspBlock = 0 ∧ t.KV = true ∧ t.RK = generateRoundKeys k :=
  ⟨_, keygenCompletes k s hready (noResetFor_mono hr (by decide)), rfl, rfl, rfl, rfl⟩

/-- The response of `ENCBLK` and `DECBLK`, with and without a valid key. -/
theorem blockCommand_response {s : State} (hready : s.PH.ready = true) (hr : s.noResetFor 36 = true)
    (mode : Mode) (x : Block) : ∃ t, exec (blockCommand mode x) s = .next t ∧
      (s.KV = true → t.outputs.rspStatus = 1 ∧ t.outputs.rspBlock = processBlock x s.RK mode) ∧
      (s.KV = false → t.outputs.rspStatus = 7 ∧ t.outputs.rspBlock = 0) := by
  have hr19 : s.noResetFor 19 = true := noResetFor_mono hr (by decide)
  cases hkv : s.KV with
  | true =>
    cases mode with
    | encrypt => exact ⟨_, encblkCompletes x s hready hkv hr19, fun _ => ⟨rfl, rfl⟩, by simp⟩
    | decrypt => exact ⟨_, decblkCompletes x s hready hkv hr19, fun _ => ⟨rfl, rfl⟩, by simp⟩
  | false =>
    obtain ⟨hencblk, hdecblk⟩ := blockCommandsWithoutKeyFail x s hready hkv
    cases mode with
    | encrypt => exact ⟨_, hencblk, by simp, fun _ => ⟨rfl, rfl⟩⟩
    | decrypt => exact ⟨_, hdecblk, by simp, fun _ => ⟨rfl, rfl⟩⟩

/-- The response of `ENCRYPT` and `DECRYPT`. -/
theorem cipherCommand_response {s : State} (hready : s.PH.ready = true)
    (hr : s.noResetFor 36 = true) (mode : Mode) (x k : Block) :
    ∃ t, exec (cipherCommand mode x k) s = .next t ∧ t.outputs.rspStatus = 1 ∧
      t.outputs.rspBlock = processBlock x (generateRoundKeys k) mode := by
  cases mode with
  | encrypt => exact ⟨_, encryptCompletes x k s hready hr, rfl, rfl⟩
  | decrypt => exact ⟨_, decryptCompletes x k s hready hr, rfl, rfl⟩

/-! ### The obligation -/

/-- A call of `generate_round_keys` and its command agree. -/
theorem generateRoundKeys_call {s : State} (hready : s.PH.ready = true)
    (hr : s.noResetFor 36 = true) (key : RawBlock) :
    (∀ e, rawGenerateRoundKeys key = .error e →
      Call.present (.generateRoundKeys key) = .error e) ∧
    ∀ keys, rawGenerateRoundKeys key = .ok keys →
      ∃ i t, Call.present (.generateRoundKeys key) = .ok i ∧ exec i s = .next t ∧
        t.outputs.rspStatus = 1 ∧ t.outputs.rspBlock = 0 ∧ t.KV = true ∧
        t.RK.map rawOfBits = keys := by
  obtain ⟨e, hraw, hpresent⟩ | ⟨k, hraw, hpresent⟩ := present_generateRoundKeys key <;>
    simp only [hraw, hpresent]
  · exact ⟨fun _ h => (by cases h; rfl), fun _ h => by cases h⟩
  · obtain ⟨t, hexec, hstatus, hblock, hkv, hrk⟩ := keygen_response hready hr k
    refine ⟨fun _ h => (by cases h), fun keys h => ⟨_, t, rfl, hexec, hstatus, hblock, hkv, ?_⟩⟩
    rw [hrk]
    exact Except.ok.inj h

/-- A call of `process_block` under the stored round keys and its command agree. -/
theorem processBlock_call {s : State} (hready : s.PH.ready = true) (hr : s.noResetFor 36 = true)
    (block : RawBlock) (mode : Mode) :
    (∀ e, rawProcessBlock block (s.RK.map rawOfBits) mode = .error e →
      Call.present (.processBlock block mode) = .error e) ∧
    ∀ out, rawProcessBlock block (s.RK.map rawOfBits) mode = .ok out →
      ∃ i t, Call.present (.processBlock block mode) = .ok i ∧ exec i s = .next t ∧
        (s.KV = true → t.outputs.rspStatus = 1 ∧ rawOfBits t.outputs.rspBlock = out) ∧
        (s.KV = false → t.outputs.rspStatus = 7 ∧ t.outputs.rspBlock = 0) := by
  obtain ⟨e, hraw, hpresent⟩ | ⟨x, hraw, hpresent⟩ := present_processBlock block s.RK mode <;>
    simp only [hraw, hpresent]
  · exact ⟨fun _ h => (by cases h; rfl), fun _ h => by cases h⟩
  · obtain ⟨t, hexec, hkeyed, hnokey⟩ := blockCommand_response hready hr mode x
    refine ⟨fun _ h => (by cases h), fun out h => ⟨_, t, rfl, hexec, fun hkv => ?_, hnokey⟩⟩
    obtain ⟨hstatus, hblock⟩ := hkeyed hkv
    rw [hblock]
    exact ⟨hstatus, Except.ok.inj h⟩

/-- A call of `encrypt` or `decrypt` and its command agree. -/
theorem cipher_call {s : State} (hready : s.PH.ready = true) (hr : s.noResetFor 36 = true)
    (mode : Mode) (block key : RawBlock) :
    (∀ e, rawCipher mode block key = .error e →
      Call.present (cipherCall mode block key) = .error e) ∧
    ∀ out, rawCipher mode block key = .ok out →
      ∃ i t, Call.present (cipherCall mode block key) = .ok i ∧ exec i s = .next t ∧
        t.outputs.rspStatus = 1 ∧ rawOfBits t.outputs.rspBlock = out := by
  obtain ⟨e, hraw, hpresent⟩ | ⟨x, k, hraw, hpresent⟩ := present_cipherCall mode block key <;>
    simp only [hraw, hpresent]
  · exact ⟨fun _ h => (by cases h; rfl), fun _ h => by cases h⟩
  · obtain ⟨t, hexec, hstatus, hblock⟩ := cipherCommand_response hready hr mode x k
    refine ⟨fun _ h => (by cases h), fun out h => ⟨_, t, rfl, hexec, hstatus, ?_⟩⟩
    rw [hblock]
    exact Except.ok.inj h

/-- Settles O53: the four calls, one by one. -/
theorem presentedCallsGiveTheSourceResult : Obligations.PresentedCallsGiveTheSourceResult := by
  intro block key mode s hready hr
  obtain ⟨hkeysError, hkeysOk⟩ := generateRoundKeys_call hready hr key
  obtain ⟨hblockError, hblockOk⟩ := processBlock_call hready hr block mode
  obtain ⟨hencryptError, hencryptOk⟩ := cipher_call hready hr .encrypt block key
  obtain ⟨hdecryptError, hdecryptOk⟩ := cipher_call hready hr .decrypt block key
  rw [rawEncrypt_eq_rawCipher, rawDecrypt_eq_rawCipher]
  exact ⟨hkeysError, hkeysOk, hblockError, hblockOk, hencryptError, hencryptOk, hdecryptError,
    hdecryptOk⟩

end Sys2Proof.Machine
end
